-- ==== Sys2Proof/Word.lean ====
section
/-! DEFINITION. The words of the block: a Frame Buffer word, a byte, a command word, and the two
small types the drawing rules are written with (spec/00_scope.md R8, R9, R10). -/

namespace Sys2Proof

/-- One byte: a payload byte, a glyph byte, a byte handed to the sink. -/
abbrev Byte := BitVec 8

/-- One word of the Frame Buffer, a column of 64 rows; bit 0 is the top row (R23, R24). -/
abbrev Word := BitVec 64

/-- A command word `CW` of the one format `CW128` (R82). -/
abbrev CommandWord := BitVec 128

/-- The colour operand, one bit: `true` sets pixels, `false` clears them (R84). -/
abbrev Colour := Bool

/-- A pixel position (column, row). Any integers: a position may lie off the panel (R121). -/
abbrev Pixel := Int × Int

end Sys2Proof
end

