-- ==== Sys2Proof/Syntax.lean ====
section
/-! DEFINITION. A command as it arrives (word and payload), and the 16 operations as instructions with
their operands already assembled (spec/30_encoding.md R80, R83, R86). -/

namespace Sys2Proof

/-- One transaction of the command port: a 128-bit command word `CW` and the payload bytes `PL`
(R80, R82, R90). -/
structure Command where
  cw : CommandWord
  pl : List Byte
deriving DecidableEq, Repr

/-- The 16 operations of R86, operands in the order of the call each one is. A coordinate, length, radius,
width, height or page operand is the exact integer its slot stands for (R83). A payload stands where the
call has its array argument. `len` of `DRAWTEXT` is the length of its text (R90, R97). -/
inductive Instr where
  /-- `CLEAR` (R120). -/
  | clear
  /-- `SETPIXEL` (R122). -/
  | setPixel (x y : Int) (color : Colour)
  /-- `BLIT` (R124). -/
  | blit (bitmap : List Byte) (width x y : Int)
  /-- `REPLACEALL` (R126). -/
  | replaceAll (bitmap64 : List Byte)
  /-- `DRAWLINE` (R141). -/
  | drawLine (x0 y0 x1 y1 width : Int) (color : Colour)
  /-- `HLINE` (R145). -/
  | hline (x0 x1 y : Int) (color : Colour)
  /-- `VLINE` (R147). -/
  | vline (y0 y1 x : Int) (color : Colour)
  /-- `DRAWRECT` (R150). -/
  | drawRect (x0 y0 x1 y1 : Int) (color : Colour)
  /-- `FILLRECT` (R153). -/
  | fillRect (x0 y0 x1 y1 : Int) (color : Colour)
  /-- `DRAWTRI` (R156). -/
  | drawTri (x0 y0 x1 y1 x2 y2 : Int) (color : Colour)
  /-- `DRAWEQTRI` (R159). -/
  | drawEqTri (tipX tipY height width : Int) (color : Colour)
  /-- `DRAWCIRCLE` (R164). -/
  | drawCircle (cx cy r : Int) (color : Colour)
  /-- `FILLCIRCLE` (R168). -/
  | fillCircle (cx cy r : Int) (color : Colour)
  /-- `DRAWCHAR` (R184). -/
  | drawChar (c : Byte) (x y : Int)
  /-- `DRAWTEXT` (R187). -/
  | drawText (text : List Byte) (x y : Int)
  /-- `RENDER` (R207). -/
  | render (startPage endPage : Int)
deriving DecidableEq, Repr

end Sys2Proof
end

