-- ==== Sys2Proof/WellFormed.lean ====
section
/-! DEFINITION. Which instructions a command can spell: every signed operand fits its 16-bit slot
(spec/30_encoding.md R83) and every payload has the length the command word asks for (R90). -/

namespace Sys2Proof

/-- `v` is the value of a signed 16-bit slot (R83). -/
def fitsSlot (v : Int) : Bool := decide (-32768 ≤ v) && decide (v ≤ 32767)

/-- The instruction is spelled by some command: its slots fit (R83), and the payload of `BLIT` has
`max(width, 0)` bytes, that of `REPLACEALL` 1024, that of `DRAWTEXT` at most 255 (R90). -/
def Instr.wf : Instr → Bool
  | .clear => true
  | .setPixel x y _ => fitsSlot x && fitsSlot y
  | .blit bitmap width x y =>
      fitsSlot width && fitsSlot x && fitsSlot y && decide (bitmap.length = width.toNat)
  | .replaceAll bitmap64 => decide (bitmap64.length = 1024)
  | .drawLine x0 y0 x1 y1 width _ =>
      fitsSlot x0 && fitsSlot y0 && fitsSlot x1 && fitsSlot y1 && fitsSlot width
  | .hline x0 x1 y _ => fitsSlot x0 && fitsSlot x1 && fitsSlot y
  | .vline y0 y1 x _ => fitsSlot y0 && fitsSlot y1 && fitsSlot x
  | .drawRect x0 y0 x1 y1 _ => fitsSlot x0 && fitsSlot y0 && fitsSlot x1 && fitsSlot y1
  | .fillRect x0 y0 x1 y1 _ => fitsSlot x0 && fitsSlot y0 && fitsSlot x1 && fitsSlot y1
  | .drawTri x0 y0 x1 y1 x2 y2 _ =>
      fitsSlot x0 && fitsSlot y0 && fitsSlot x1 && fitsSlot y1 && fitsSlot x2 && fitsSlot y2
  | .drawEqTri tipX tipY height width _ =>
      fitsSlot tipX && fitsSlot tipY && fitsSlot height && fitsSlot width
  | .drawCircle cx cy r _ => fitsSlot cx && fitsSlot cy && fitsSlot r
  | .fillCircle cx cy r _ => fitsSlot cx && fitsSlot cy && fitsSlot r
  | .drawChar _ x y => fitsSlot x && fitsSlot y
  | .drawText text x y => fitsSlot x && fitsSlot y && decide (text.length ≤ 255)
  | .render startPage endPage => fitsSlot startPage && fitsSlot endPage

end Sys2Proof
end

