-- ==== Sys2Proof/Decode.lean ====
section
/-! DEFINITION. The decoder, total on every pair of a command word and a payload, and the encoder
(spec/30_encoding.md R82 to R93). -/

namespace Sys2Proof

/-- Why a pair is not a command (R92). The block completes `ILLEGAL` for both. -/
inductive Illegal where
  /-- No row of the opcode map matches: an unknown `OPC` or a must-be-zero bit that is 1 (R85, R93). -/
  | noRow
  /-- The payload has not the required length (R91). -/
  | payloadLength
deriving DecidableEq, Repr

/-- The names of the 16 operations (R86). -/
inductive Operation where
  | clear | setPixel | blit | replaceAll
  | drawLine | hline | vline | drawRect | fillRect | drawTri | drawEqTri | drawCircle | fillCircle
  | drawChar | drawText | render
deriving DecidableEq, Repr

/-- One row of the opcode map: the operation, its match and its mask (R87). -/
structure OpcodeRow where
  op : Operation
  pattern : CommandWord
  mask : CommandWord
deriving DecidableEq, Repr

/-- The opcode map of R87, row by row. -/
def opcodeMap : List OpcodeRow := [
  ⟨.clear,      0x00000000000000000000000000000001, 0xFFFFFFFFFFFFFFFFFFFFFFFFFFFFFFFF⟩,
  ⟨.setPixel,   0x00000000000000000000000000000002, 0xFFFFFFFFFFFFFFFFFFFF00000000FEFF⟩,
  ⟨.blit,       0x00000000000000000000000000000003, 0xFFFFFFFFFFFFFFFF000000000000FFFF⟩,
  ⟨.replaceAll, 0x00000000000000000000000000000004, 0xFFFFFFFFFFFFFFFFFFFFFFFFFFFFFFFF⟩,
  ⟨.drawLine,   0x00000000000000000000000000000010, 0xFFFFFFFF00000000000000000000FEFF⟩,
  ⟨.hline,      0x00000000000000000000000000000011, 0xFFFFFFFFFFFFFFFF000000000000FEFF⟩,
  ⟨.vline,      0x00000000000000000000000000000012, 0xFFFFFFFFFFFFFFFF000000000000FEFF⟩,
  ⟨.drawRect,   0x00000000000000000000000000000013, 0xFFFFFFFFFFFF0000000000000000FEFF⟩,
  ⟨.fillRect,   0x00000000000000000000000000000014, 0xFFFFFFFFFFFF0000000000000000FEFF⟩,
  ⟨.drawTri,    0x00000000000000000000000000000015, 0xFFFF000000000000000000000000FEFF⟩,
  ⟨.drawEqTri,  0x00000000000000000000000000000016, 0xFFFFFFFFFFFF0000000000000000FEFF⟩,
  ⟨.drawCircle, 0x00000000000000000000000000000017, 0xFFFFFFFFFFFFFFFF000000000000FEFF⟩,
  ⟨.fillCircle, 0x00000000000000000000000000000018, 0xFFFFFFFFFFFFFFFF000000000000FEFF⟩,
  ⟨.drawChar,   0x00000000000000000000000000000020, 0xFFFFFFFFFFFFFFFF00000000FF00FFFF⟩,
  ⟨.drawText,   0x00000000000000000000000000000021, 0xFFFFFFFFFFFFFFFFFF0000000000FFFF⟩,
  ⟨.render,     0x00000000000000000000000000000030, 0xFFFFFFFFFFFFFFFFFFFF00000000FFFF⟩]

/-- The word spells the row's operation: `w & mask = match` (R87). -/
def OpcodeRow.spelledBy (r : OpcodeRow) (cw : CommandWord) : Bool := cw &&& r.mask == r.pattern

/-- The operation a command word spells, if any (R87, R92). -/
def operationOf (cw : CommandWord) : Option Operation :=
  (opcodeMap.find? fun r => r.spelledBy cw).map OpcodeRow.op

/-- `OPC`, bits 7:0 (R82). -/
def opcodeField (cw : CommandWord) : Byte := cw.extractLsb' 0 8

/-- `C`, bit 8 (R82, R84). -/
def colourField (cw : CommandWord) : Colour := cw.getLsbD 8

/-- Operand slot `Ak`, bits 31+16k : 16+16k (R82). -/
def slot (k : Nat) (cw : CommandWord) : BitVec 16 := cw.extractLsb' (16 + 16 * k) 16

/-- The operand in slot `k`: its 16 bits as a two's-complement integer, `sext_16(Ak)` (R12, R83). -/
def operand (k : Nat) (cw : CommandWord) : Int := (slot k cw).toInt

/-- The unsigned byte operand in slot `k`, `Ak[7:0]`: `c` of `DRAWCHAR`, `len` of `DRAWTEXT` (R83). -/
def byteOperand (k : Nat) (cw : CommandWord) : Byte := (slot k cw).setWidth 8

/-- The required length of the payload, a function of the operation and one operand (R90). -/
def requiredLength (op : Operation) (cw : CommandWord) : Nat :=
  match op with
  | .blit => (operand 2 cw).toNat
  | .replaceAll => 1024
  | .drawText => (byteOperand 2 cw).toNat
  | _ => 0

/-- The instruction a matched command spells: which slot holds which operand (R86). -/
def assemble (op : Operation) (c : Command) : Instr :=
  let a := fun k => operand k c.cw
  let col := colourField c.cw
  match op with
  | .clear => .clear
  | .setPixel => .setPixel (a 0) (a 1) col
  | .blit => .blit c.pl (a 2) (a 0) (a 1)
  | .replaceAll => .replaceAll c.pl
  | .drawLine => .drawLine (a 0) (a 1) (a 2) (a 3) (a 4) col
  | .hline => .hline (a 0) (a 1) (a 2) col
  | .vline => .vline (a 0) (a 1) (a 2) col
  | .drawRect => .drawRect (a 0) (a 1) (a 2) (a 3) col
  | .fillRect => .fillRect (a 0) (a 1) (a 2) (a 3) col
  | .drawTri => .drawTri (a 0) (a 1) (a 2) (a 3) (a 4) (a 5) col
  | .drawEqTri => .drawEqTri (a 0) (a 1) (a 2) (a 3) col
  | .drawCircle => .drawCircle (a 0) (a 1) (a 2) col
  | .fillCircle => .fillCircle (a 0) (a 1) (a 2) col
  | .drawChar => .drawChar (byteOperand 0 c.cw) (a 1) (a 2)
  | .drawText => .drawText c.pl (a 0) (a 1)
  | .render => .render (a 0) (a 1)

/-- Decoding, in the order of R92: the row of the opcode map, then the payload's length. -/
def decode (c : Command) : Except Illegal Instr :=
  match operationOf c.cw with
  | none => .error .noRow
  | some op =>
    if c.pl.length = requiredLength op c.cw then .ok (assemble op c) else .error .payloadLength

/-! ### The encoder -/

/-- A command word of the format `CW128` from its fields, `RSV` and `A6` zero (R82, R85). -/
def commandWord (opc : Byte) (c : Colour) (a0 a1 a2 a3 a4 a5 : BitVec 16) : CommandWord :=
  0#16 ++ a5 ++ a4 ++ a3 ++ a2 ++ a1 ++ a0 ++ 0#7 ++ BitVec.ofBool c ++ opc

/-- The slot of a signed operand (R83). -/
def slotOf (v : Int) : BitVec 16 := BitVec.ofInt 16 v

/-- The opcode numbers of R86. -/
def opcodeOf : Instr → Byte
  | .clear => 0x01
  | .setPixel .. => 0x02
  | .blit .. => 0x03
  | .replaceAll .. => 0x04
  | .drawLine .. => 0x10
  | .hline .. => 0x11
  | .vline .. => 0x12
  | .drawRect .. => 0x13
  | .fillRect .. => 0x14
  | .drawTri .. => 0x15
  | .drawEqTri .. => 0x16
  | .drawCircle .. => 0x17
  | .fillCircle .. => 0x18
  | .drawChar .. => 0x20
  | .drawText .. => 0x21
  | .render .. => 0x30

/-- The command that spells a well-formed instruction: slots and colour by R86, payload by R90. -/
def encode (i : Instr) : Command :=
  let opc := opcodeOf i
  match i with
  | .clear => ⟨commandWord opc false 0 0 0 0 0 0, []⟩
  | .setPixel x y c => ⟨commandWord opc c (slotOf x) (slotOf y) 0 0 0 0, []⟩
  | .blit bitmap width x y =>
      ⟨commandWord opc false (slotOf x) (slotOf y) (slotOf width) 0 0 0, bitmap⟩
  | .replaceAll bitmap64 => ⟨commandWord opc false 0 0 0 0 0 0, bitmap64⟩
  | .drawLine x0 y0 x1 y1 width c =>
      ⟨commandWord opc c (slotOf x0) (slotOf y0) (slotOf x1) (slotOf y1) (slotOf width) 0, []⟩
  | .hline x0 x1 y c => ⟨commandWord opc c (slotOf x0) (slotOf x1) (slotOf y) 0 0 0, []⟩
  | .vline y0 y1 x c => ⟨commandWord opc c (slotOf y0) (slotOf y1) (slotOf x) 0 0 0, []⟩
  | .drawRect x0 y0 x1 y1 c =>
      ⟨commandWord opc c (slotOf x0) (slotOf y0) (slotOf x1) (slotOf y1) 0 0, []⟩
  | .fillRect x0 y0 x1 y1 c =>
      ⟨commandWord opc c (slotOf x0) (slotOf y0) (slotOf x1) (slotOf y1) 0 0, []⟩
  | .drawTri x0 y0 x1 y1 x2 y2 c =>
      ⟨commandWord opc c (slotOf x0) (slotOf y0) (slotOf x1) (slotOf y1) (slotOf x2) (slotOf y2), []⟩
  | .drawEqTri tipX tipY height width c =>
      ⟨commandWord opc c (slotOf tipX) (slotOf tipY) (slotOf height) (slotOf width) 0 0, []⟩
  | .drawCircle cx cy r c => ⟨commandWord opc c (slotOf cx) (slotOf cy) (slotOf r) 0 0 0, []⟩
  | .fillCircle cx cy r c => ⟨commandWord opc c (slotOf cx) (slotOf cy) (slotOf r) 0 0 0, []⟩
  | .drawChar c x y => ⟨commandWord opc false (c.setWidth 16) (slotOf x) (slotOf y) 0 0 0, []⟩
  | .drawText text x y =>
      ⟨commandWord opc false (slotOf x) (slotOf y) (BitVec.ofNat 16 text.length) 0 0 0, text⟩
  | .render startPage endPage => ⟨commandWord opc false (slotOf startPage) (slotOf endPage) 0 0 0 0, []⟩

/-! ### The host's numbering -/

/-- The command whose bits are `w`, numbered as the opcode table numbers them: bits 127:0 are the command
word, and payload byte `k` is bits 135+8k : 128+8k, as many as the word requires. Bits at `nbits` and above
are 0. DESIGN CHOICE (log 15): the spec numbers the word's bits only; it frames the payload nowhere (R90). -/
def tableCommand (nbits w : Nat) : Command :=
  let bits := w % 2 ^ nbits
  let cw := BitVec.ofNat 128 bits
  let len := match operationOf cw with
    | none => 0
    | some op => requiredLength op cw
  ⟨cw, (List.range len).map fun k => BitVec.ofNat 8 (bits >>> (128 + 8 * k))⟩

/-- The instruction the decoder reads from an instruction whose bits are `w`; none where it refuses. -/
def decodeTableWord (nbits w : Nat) : Option Instr :=
  match decode (tableCommand nbits w) with
  | .ok i => some i
  | .error _ => none

end Sys2Proof
end

