-- ==== Sys2Proof/Config.lean ====
section
/-! DEFINITION. The parameters of the block (spec/00_scope.md R8) and its free values. A free value is a
constant without a body: nothing can be proved of its value, so a claim holds whatever it is. -/

namespace Sys2Proof.Config

/-- `TEXT_PITCH`: the x advance per character (R8, R187). -/
def textPitch : Int := 6

/-- `TEXT_XMAX`: the largest accepted x of a text start (R8, R187). -/
def textXMax : Int := 127

/-- `TEXT_YMAX`: the largest accepted y of a text start (R8, R187). -/
def textYMax : Int := 55

/-- `CTRL_DATA`: the control byte of a data frame (R8, R205). -/
def ctrlData : Byte := 0x40

/-- `CURSOR_PAGE_BASE`: the first byte of the cursor triad of page 0 (R8, R204). -/
def cursorPageBase : Byte := 0xB0

/-- `EQTRI_NUM` (R8, R159). -/
def eqTriNum : Int := 1732

/-- `EQTRI_DEN` (R8, R159). -/
def eqTriDen : Int := 2000

/-- The open parameter `FONT` by flat address `8*c + i` (R8, R50, R181). DESIGN CHOICE (log 5): a free
value; the machine reads the copy of it that State holds. -/
opaque font : Nat → Byte

/-- The open parameter `FB_RESET` (R8, R34): the word in a column after reset number `n`.
DESIGN CHOICE (log 2): a free value of the reset's number and the column. -/
opaque fbReset : Nat → Nat → Word

/-- `CUR` after reset number `n`: unspecified (R34). DESIGN CHOICE (log 3): a free value. -/
opaque curReset : Nat → BitVec 24

/-- The command word of the operand latch after reset number `n`: unspecified (R34).
DESIGN CHOICE (log 4): a free value. -/
opaque latchWordReset : Nat → CommandWord

/-- The payload of the operand latch after reset number `n`: unspecified (R34).
DESIGN CHOICE (log 4): a free value. -/
opaque latchPayloadReset : Nat → List Byte

end Sys2Proof.Config
end

