-- ==== Sys2Proof/Machine/State.lean ====
section
/-! DEFINITION. Everything the spec gives the machine, as plain data, and the machine right after reset
(spec/10_state.md; the list with rules and reset values is INVENTORY.md's State). -/

namespace Sys2Proof.Machine

/-- The Frame Buffer `FB`: 128 words, word `x` is column `x` (R23, R50). DESIGN CHOICE (log 1): the block has
no byte-addressed memory, so `FB` is 128 words by column and not a list of byte cells. -/
abbrev Frame := Vector Word 128

/-- The Font Table `FONT`: 2048 bytes, byte `i` of glyph `c` at the flat address `8*c + i` (R27, R50). -/
abbrev FontTable := Vector Byte 2048

/-- The Frame Buffer whose word `x` is `f x`. -/
def frameOf (f : Nat → Word) : Frame := ⟨((List.range 128).map f).toArray, by simp⟩

/-- The Font Table whose byte at flat address `k` is `f k`. -/
def fontOf (f : Nat → Byte) : FontTable := ⟨((List.range 2048).map f).toArray, by simp⟩

/-- The run state `RS` (R31); the page and the end page of the running `RENDER` are part of it. -/
inductive RunState where
  /-- The block waits for a command. -/
  | idle
  /-- An accepted command runs (log 7). -/
  | exec
  /-- `RENDER` has emitted the cursor triad of page `p` and waits for the sink's answer. -/
  | curWait (p endPage : Fin 8)
  /-- `RENDER` has emitted the data frame of page `p` and waits for the sink's answer. -/
  | dataWait (p endPage : Fin 8)
deriving DecidableEq, Repr

/-- The sink's answer to one write transaction (R95, R203). -/
inductive SinkAnswer where
  /-- The sink took this many bytes. -/
  | took (n : Nat)
  /-- `FAIL`: the write failed with no count. -/
  | fail
deriving DecidableEq, Repr

/-- The machine: the block's own state, then the run's bookkeeping and the block's ports. -/
structure State where
  /-- `FB` (R23). -/
  fb : Frame
  /-- `FONT`, read only (R27). -/
  font : FontTable
  /-- `ST`, the completion record of the last command (R29). -/
  st : BitVec 32
  /-- `CUR`, the last cursor triad built (R30). -/
  cur : BitVec 24
  /-- `RS` (R31). -/
  rs : RunState
  /-- The operand latch: the accepted command (R28). -/
  latch : Command
  /-- The command-list index, advanced by 1 at each completion (R21). -/
  index : Nat
  /-- The command accepted last has not delivered its record: it runs, or a reset ended it. Bookkeeping of the run,
  for the end of a run of R311; no step reads it (log 18). -/
  recordOwed : Bool
  /-- The command port: the commands the host will offer, oldest first (R80, R33; log 6). -/
  commands : List Command
  /-- The sink's answers still to come, one per write transaction in emission order, the first one for the
  transaction that waits now or is emitted next (R33, R203, R210; log 6). -/
  answers : List SinkAnswer
  /-- The host has asserted the reset event (R300; log 10). -/
  resetIn : Bool
  /-- The completion port: the records delivered, oldest first (R94, R311; log 13). -/
  completions : List (BitVec 32)
  /-- The sink port: the write transactions emitted, oldest first (R95, R311; log 13). -/
  transactions : List (List Byte)
  /-- The model's own: how many resets the block has taken; it selects the free values of R34 (log 12). -/
  resets : Nat
deriving DecidableEq, Repr

/-- Why the machine stops with a fault. It has no constructor: the spec gives the block no trap and no access
that can fault (R25, R57, R271, R277); its errors are completion codes, which are next states. -/
inductive Fault where
deriving DecidableEq, Repr

/-- Why a step is refused. -/
inductive Refusal where
  /-- Raised by an arm of exec whose instruction has no meaning yet (safe: the machine stops where the
  hardware goes on). No arm of this model raises it. -/
  | notModelled (mnemonic : String)
deriving DecidableEq, Repr

/-- The machine right after reset (R34, R300): `RS` idle, `ST` zero; `FB`, `CUR` and the latch unspecified,
the free values of draw 0 (logs 2, 3, 4); `FONT` its constant contents (log 5); the index 0 (R21); nothing
offered, answered, accepted, delivered or emitted yet (logs 6, 13, 18). -/
def State.reset : State where
  fb := frameOf (Config.fbReset 0)
  font := fontOf Config.font
  st := 0
  cur := Config.curReset 0
  rs := .idle
  latch := ⟨Config.latchWordReset 0, Config.latchPayloadReset 0⟩
  index := 0
  recordOwed := false
  commands := []
  answers := []
  resetIn := false
  completions := []
  transactions := []
  resets := 0

/-- The form of the block's two memories: 128 words and 2048 bytes (R23, R27, R50). There is no sparse listing, so
equal memories are equal data (log 1). -/
abbrev Memory.wf (s : State) : Prop := s.fb.toList.length = 128 ∧ s.font.toList.length = 2048

end Sys2Proof.Machine
end

