-- ==== Sys2Proof/Machine/Flags.lean ====
section
/-! DEFINITION. The completion record, which is the block's only flag-like state, and the fields of `ST`
(spec/10_state.md R22, R29; 30_encoding.md R94; 60_exceptions.md R272). -/

namespace Sys2Proof.Machine

/-- Which transaction of a page failed: `PHASE` 0 a cursor triad, 1 a data frame (R29). -/
inductive Phase where
  | triad
  | data
deriving DecidableEq, Repr

/-- How a command ends (R272), with what `SINK_ERROR` records (R208). -/
inductive Completion where
  | ok
  | textRejected
  | pageRange
  | sinkError (phase : Phase) (page : Fin 8) (expected : Nat) (answer : SinkAnswer)
  | illegal
deriving DecidableEq, Repr

/-- A 32-bit record from its fields, bits 31:25 zero (R29). -/
def recordWord (fail : Bool) (actual expected : Byte) (page : BitVec 3) (phase : Bool) (code : BitVec 4) :
    BitVec 32 :=
  0#7 ++ BitVec.ofBool fail ++ actual ++ expected ++ page ++ BitVec.ofBool phase ++ code

/-- `ACTUAL`: the count the sink answered, 0 for `FAIL` (R29). A count of 256 or more, which no sink inside the
interface answers, gives its low 8 bits (log 9). -/
def actualField : SinkAnswer → Byte
  | .took n => BitVec.ofNat 8 n
  | .fail => 0

/-- `FAIL`: the sink answered `FAIL` and gave no count (R29). -/
def failField : SinkAnswer → Bool
  | .took _ => false
  | .fail => true

/-- `PHASE` (R29). -/
def phaseField : Phase → Bool
  | .triad => false
  | .data => true

/-- The completion record (R29, R94, R208, R272). -/
def recordOf : Completion → BitVec 32
  | .ok => recordWord false 0 0 0 false 0
  | .textRejected => recordWord false 0 0 0 false 1
  | .pageRange => recordWord false 0 0 0 false 2
  | .sinkError phase page expected answer =>
      recordWord (failField answer) (actualField answer) (BitVec.ofNat 8 expected)
        (BitVec.ofNat 3 page.val) (phaseField phase) 3
  | .illegal => recordWord false 0 0 0 false 4

/-! ### The fields of a record, as the host reads them (R29) -/

/-- `CODE`, bits 3:0. -/
def stCode (st : BitVec 32) : BitVec 4 := st.extractLsb' 0 4

/-- `PHASE`, bit 4. -/
def stPhase (st : BitVec 32) : Bool := st.getLsbD 4

/-- `PAGE`, bits 7:5. -/
def stPage (st : BitVec 32) : BitVec 3 := st.extractLsb' 5 3

/-- `EXPECTED`, bits 15:8. -/
def stExpected (st : BitVec 32) : Byte := st.extractLsb' 8 8

/-- `ACTUAL`, bits 23:16. -/
def stActual (st : BitVec 32) : Byte := st.extractLsb' 16 8

/-- `FAIL`, bit 24. -/
def stFail (st : BitVec 32) : Bool := st.getLsbD 24

/-- The reserved bits 31:25. -/
def stReserved (st : BitVec 32) : BitVec 7 := st.extractLsb' 25 7

end Sys2Proof.Machine
end

