-- ==== Sys2Proof/Machine/Operands.lean ====
section
/-! DEFINITION. The operand forms of the operations once the word is decoded: ranges, pages, the text window,
payload words, bitmap and glyph bytes, page bytes (spec/00_scope.md R11, R18; 20_memory.md R51 to R55). -/

namespace Sys2Proof.Machine

/-- The integers `a, a+1, ..., b`, none when `a > b`: the values of `for v = a .. b` (R18). -/
def intRange (a b : Int) : List Int := (List.range (b + 1 - a).toNat).map fun k : Nat => a + (k : Int)

/-- The page an operand names, if it lies in `[0,7]` (R201). -/
def pageOf (v : Int) : Option (Fin 8) := if h : 0 ≤ v ∧ v ≤ 7 then some ⟨v.toNat, by omega⟩ else none

/-- The start position of a text lies in `[0,127] x [0,55]` (R187): no one of the four tests rejects it. -/
def inTextWindow (x y : Int) : Bool :=
  !(decide (x < 0) || decide (x > Config.textXMax) || decide (y < 0) || decide (y > Config.textYMax))

/-- The base half-width of `DRAWEQTRI`: the product first, then division truncating toward zero (R159). -/
def eqTriHalfBase (height : Int) : Int := Int.tdiv (height * Config.eqTriNum) Config.eqTriDen

/-- Byte `k` of a payload or bitmap. A byte past its end, which only an ill-formed instruction asks for,
reads 0 (log 14). -/
def byteAt (bytes : List Byte) (k : Nat) : Byte := bytes.getD k 0

/-- Word `x` of a `REPLACEALL` payload: bytes `8x .. 8x+7`, least significant first (R54, R126). -/
def payloadWord (pl : List Byte) (x : Nat) : Word :=
  let b := fun k => (byteAt pl (8 * x + k)).setWidth 64
  b 0 ||| b 1 <<< 8 ||| b 2 <<< 16 ||| b 3 <<< 24 ||| b 4 <<< 32 ||| b 5 <<< 40 ||| b 6 <<< 48 ||| b 7 <<< 56

/-- `FB[x]` (R13, R14). Every rule keeps `x` in `[0,127]` (R25); outside there is no word and this reads 0. -/
def Frame.word (fb : Frame) (x : Nat) : Word := if h : x < 128 then fb[x] else 0

/-- `FB[x] <- w` (R13, R14). Every rule keeps `x` in `[0,127]` (R25); outside nothing is written. -/
def Frame.setWord (fb : Frame) (x : Nat) (w : Word) : Frame := if h : x < 128 then fb.set x w else fb

/-- The pixel at column `x`, row `y`: bit `y` of `FB[x]` (R51). -/
def Frame.pixel (fb : Frame) (x y : Nat) : Bool := (Frame.word fb x).getLsbD y

/-- Page `p` of a column word: `(FB[x] >> (8*p)) & 0xFF` (R52). -/
def pageByte (w : Word) (p : Nat) : Byte := (w >>> (8 * p)).setWidth 8

/-- `FONT[c][i]`, at the flat address `8*c + i` (R27, R50). -/
def fontByte (font : FontTable) (c : Byte) (i : Nat) : Byte :=
  if h : 8 * c.toNat + i < 2048 then font[8 * c.toNat + i] else 0

/-- `glyph(c) = FONT[c][0..7]`, column bytes left to right (R180, R182). -/
def glyph (font : FontTable) (c : Byte) : List Byte := (List.range 8).map fun i => fontByte font c i

end Sys2Proof.Machine
end

