-- ==== Sys2Proof/Machine/Ops.lean ====
section
/-! DEFINITION. The named operations every meaning is built from: plotting, ending a command, handing a
transaction to the sink, accepting a command, taking the reset event, reading the status port. -/

namespace Sys2Proof.Machine

/-! ### Drawing -/

/-- Bit `y` of a word set or cleared: `w | (1 << y)`, `w & ~(1 << y)` (R121). -/
def setBit (w : Word) (y : Nat) (c : Colour) : Word :=
  if c then w ||| (1#64 <<< y) else w &&& ~~~(1#64 <<< y)

/-- `plot(x, y, c)`: one pixel, nothing off the panel (R121). -/
def plot (x y : Int) (c : Colour) (fb : Frame) : Frame :=
  if x < 0 ∨ x > 127 ∨ y < 0 ∨ y > 63 then fb
  else Frame.setWord fb x.toNat (setBit (Frame.word fb x.toNat) y.toNat c)

/-- A sequence of `plot` calls of one colour, in order: every drawing operation is one (R119, R140). -/
def plotAll (c : Colour) (pixels : List Pixel) (fb : Frame) : Frame :=
  pixels.foldl (fun f p => plot p.1 p.2 c f) fb

/-! ### Ending a command -/

/-- Writes the record to `ST`, delivers it, and makes the block idle; the index moves on by one, and no record is owed
any more (R21, R81, R94, R271, R311). -/
def deliver (record : BitVec 32) (s : State) : State :=
  { s with
    st := record
    completions := s.completions ++ [record]
    rs := .idle
    index := s.index + 1
    recordOwed := false }

/-- `raise <Code>(info)`: the block's way of taking an exception. It ends the running operation at this point;
nothing but `ST` changes (R271, R277). There is nothing to return from (R278). -/
def raise (code : Completion) (s : State) : State := deliver (recordOf code) s

/-- `complete OK`: the same with the record of `OK` (R271). -/
def completeOk (s : State) : State := deliver (recordOf .ok) s

/-- A drawing operation that plots these pixels and completes `OK`. -/
def draw (c : Colour) (pixels : List Pixel) (s : State) : State :=
  completeOk { s with fb := plotAll c pixels s.fb }

/-! ### The sink port -/

/-- `Emit(t)`: hands one write transaction to the sink and waits in the run state `wait` (R203, R209). -/
def emit (t : List Byte) (wait : RunState) (s : State) : State :=
  { s with transactions := s.transactions ++ [t], rs := wait }

/-! ### The command port -/

/-- Accepts the command at the head of the port: word and payload are captured whole, the block is no longer idle
(R28, R66, R81), and a record is owed for the command (R94, R311). -/
def accept (c : Command) (rest : List Command) (s : State) : State :=
  { s with latch := c, commands := rest, rs := .exec, recordOwed := true }

/-- The host offers this command next, before what it was going to offer, to an idle block (log 6). -/
def offerNext (c : Command) (s : State) : State :=
  { s with commands := c :: s.commands, rs := .idle, resetIn := false }

/-! ### Reset -/

/-- A transaction of `RENDER` awaits its answer (R31). -/
def RunState.waiting : RunState → Bool
  | .idle => false
  | .exec => false
  | .curWait _ _ => true
  | .dataWait _ _ => true

/-- The reset event (R300, R301): idle, `ST` zero, `FB`, `CUR` and the latch unspecified, `FONT` as always. A
running command ends without a record, which stays owed (R311); transactions handed over stay handed over; the answer of one that
waited is ignored. DESIGN CHOICE (log 10): index and queues keep their values. -/
def takeReset (s : State) : State :=
  let n := s.resets + 1
  { s with
    fb := frameOf (Config.fbReset n)
    st := 0
    cur := Config.curReset n
    rs := .idle
    latch := ⟨Config.latchWordReset n, Config.latchPayloadReset n⟩
    answers := if s.rs.waiting then s.answers.tail else s.answers
    resetIn := false
    resets := n }

/-! ### The status port -/

/-- The host reads `ST` by name: its value while the block is idle, no value otherwise (R96; log 16). The read
has no side effect, so the state is not changed. -/
def readSt (s : State) : Option (BitVec 32) := if s.rs = .idle then some s.st else none

/-- The host reads `CUR` by name (R96; log 16). -/
def readCur (s : State) : Option (BitVec 24) := if s.rs = .idle then some s.cur else none

end Sys2Proof.Machine
end

