-- ==== Sys2Proof/Machine/FrameBuffer.lean ====
section
/-! DEFINITION. The frame-buffer and pixel operations: CLEAR, SETPIXEL, BLIT, REPLACEALL
(spec/40_framebuffer_ops.md). -/

namespace Sys2Proof.Machine

/-- The pixels a bitmap of `width` column bytes at `(x, y)` plots: `(x+i, y+b)` for every set bit `b` of byte `i`
(R124, R55). None when `width <= 0`. -/
def bitmapPixels (bitmap : List Byte) (width x y : Int) : List Pixel :=
  (List.range width.toNat).flatMap fun i : Nat =>
    ((List.range 8).filter fun b : Nat => (byteAt bitmap i).getLsbD b).map fun b : Nat =>
      (x + (i : Int), y + (b : Int))

/-- `CLEAR` (R120). -/
def execClear (s : State) : Host.Outcome State Fault Refusal :=
  .next (completeOk { s with fb := frameOf fun _ => 0 })

/-- `SETPIXEL x, y, color` (R122). -/
def execSetPixel (x y : Int) (color : Colour) (s : State) : Host.Outcome State Fault Refusal :=
  .next (draw color [(x, y)] s)

/-- `BLIT bitmap, width, x, y` (R124): it only sets pixels. -/
def execBlit (bitmap : List Byte) (width x y : Int) (s : State) : Host.Outcome State Fault Refusal :=
  .next (draw true (bitmapPixels bitmap width x y) s)

/-- `REPLACEALL bitmap64` (R126, R54). -/
def execReplaceAll (bitmap64 : List Byte) (s : State) : Host.Outcome State Fault Refusal :=
  .next (completeOk { s with fb := frameOf (payloadWord bitmap64) })

end Sys2Proof.Machine
end

