-- ==== Sys2Proof/Machine/Render.lean ====
section
/-! DEFINITION. The serializer operation RENDER and the steps its waiting states take when the sink answers
(spec/43_render_op.md). -/

namespace Sys2Proof.Machine

/-- The three bytes of a cursor triad: `0xB0+page`, `col & 0x0F`, `0x10 | ((col>>4) & 0x0F)` (R204). -/
def triadBytes (col page : Byte) : List Byte :=
  [Config.cursorPageBase + page, col &&& 0x0F, 0x10 ||| ((col >>> 4) &&& 0x0F)]

/-- A page number as a byte. -/
def pageNumber (p : Fin 8) : Byte := BitVec.ofNat 8 p.val

/-- The cursor triad of page `p`; the serializer addresses column 0 only (R204). -/
def cursorTriad (p : Fin 8) : List Byte := triadBytes 0 (pageNumber p)

/-- `CUR` for a triad: its first byte in bits 7:0, then the column-low and the column-high byte (R30). -/
def curOf (t : List Byte) : BitVec 24 := byteAt t 2 ++ byteAt t 1 ++ byteAt t 0

/-- The data frame of page `p`: the control byte, then the page byte of columns 0 to 127 (R205, R206). -/
def dataFrame (fb : Frame) (p : Fin 8) : List Byte :=
  Config.ctrlData :: (List.range 128).map fun x => pageByte (Frame.word fb x) p.val

/-- The length of a cursor triad (R204). -/
def triadLength : Nat := 3

/-- The length of a data frame (R205). -/
def dataFrameLength : Nat := 129

/-- Builds the triad of page `p`, writes `CUR`, hands the triad to the sink (R204, R207). -/
def sendTriad (p endPage : Fin 8) (s : State) : State :=
  emit (cursorTriad p) (.curWait p endPage) { s with cur := curOf (cursorTriad p) }

/-- Builds the data frame of page `p` from `FB` and hands it to the sink (R205, R207). -/
def sendData (p endPage : Fin 8) (s : State) : State :=
  emit (dataFrame s.fb p) (.dataWait p endPage) s

/-- `RENDER startPage, endPage` up to its first transaction (R201, R202, R207, R209): an operand outside `[0,7]`
raises `PAGE_RANGE`, an empty range completes `OK`, else the triad of the first page is emitted. -/
def execRender (startPage endPage : Int) (s : State) : Host.Outcome State Fault Refusal :=
  match pageOf startPage, pageOf endPage with
  | some p, some e => if p ≤ e then .next (sendTriad p e s) else .next (completeOk s)
  | _, _ => .next (raise .pageRange s)

/-- The step of `CUR_WAIT(p)` (R209): the answer 3 sends the data frame, any other ends `SINK_ERROR`; with no
answer the block waits (R306; log 8). -/
def triadAnswered (p endPage : Fin 8) (s : State) : State :=
  match s.answers with
  | [] => s
  | a :: rest =>
    if a = .took triadLength then sendData p endPage { s with answers := rest }
    else raise (.sinkError .triad p triadLength a) { s with answers := rest }

/-- The step of `DATA_WAIT(p)` (R209): the answer 129 goes on to the next page or completes `OK`, any other ends
`SINK_ERROR`; with no answer the block waits (R306; log 8). -/
def dataAnswered (p endPage : Fin 8) (s : State) : State :=
  match s.answers with
  | [] => s
  | a :: rest =>
    if a = .took dataFrameLength then
      if p < endPage then sendTriad (p + 1) endPage { s with answers := rest }
      else completeOk { s with answers := rest }
    else raise (.sinkError .data p dataFrameLength a) { s with answers := rest }

end Sys2Proof.Machine
end

