-- ==== Sys2Proof/Machine/Shapes.lean ====
section
/-! DEFINITION. The shape operations: DRAWLINE, HLINE, VLINE, DRAWRECT, FILLRECT, DRAWTRI, DRAWEQTRI,
DRAWCIRCLE, FILLCIRCLE (spec/41_shape_ops.md). Each is the list of pixels its pseudocode plots, in order; the
composites join the lists of the routines they call, on exact integers (R140). -/

namespace Sys2Proof.Machine

/-! ### Lines -/

/-- The `width` pixels of one step of a line, stacked along the minor axis from the minor coordinate `y` up, at the
major coordinate `x` (R141, R142). -/
def strokePixels (steep : Bool) (width x y : Int) : List Pixel :=
  (List.range width.toNat).map fun k : Nat => if steep then (y + (k : Int), x) else (x, y + (k : Int))

/-- The loop of R141: `n` more steps along the major axis from `x`, the minor coordinate `y`, the error term
`err`. -/
def lineLoop (steep : Bool) (dx dy ystep width : Int) : Nat → Int → Int → Int → List Pixel
  | 0, _, _, _ => []
  | n + 1, x, y, err =>
    strokePixels steep width x y ++
      if err - dy < 0 then lineLoop steep dx dy ystep width n (x + 1) (y + ystep) (err - dy + dx)
      else lineLoop steep dx dy ystep width n (x + 1) y (err - dy)

/-- The loop of R141 started for a line from `(x0, y0)` to `(x1, y1)` in (major, minor) coordinates, `x0 <= x1`. -/
def walkMajor (steep : Bool) (x0 y0 x1 y1 width : Int) : List Pixel :=
  let dx := x1 - x0
  let dy : Int := (y1 - y0).natAbs
  let ystep := if y0 < y1 then 1 else -1
  lineLoop steep dx dy ystep width (dx + 1).toNat x0 y0 (dx / 2)

/-- The endpoint swap of R141: always walk the major axis upward. -/
def orderMajor (steep : Bool) (x0 y0 x1 y1 width : Int) : List Pixel :=
  if x0 > x1 then walkMajor steep x1 y1 x0 y0 width else walkMajor steep x0 y0 x1 y1 width

/-- `DRAWLINE(x0, y0, x1, y1, width)`: axis transposition for steep lines, then the walk (R141). -/
def linePixels (x0 y0 x1 y1 width : Int) : List Pixel :=
  if (y1 - y0).natAbs > (x1 - x0).natAbs then orderMajor true y0 x0 y1 x1 width
  else orderMajor false x0 y0 x1 y1 width

/-- `HLINE(x0, x1, y)`: the row is bounds-checked, the endpoints ordered and clipped to the panel (R145). -/
def hlinePixels (x0 x1 y : Int) : List Pixel :=
  if y < 0 ∨ y > 63 then []
  else (intRange (max (min x0 x1) 0) (min (max x0 x1) 127)).map fun x => (x, y)

/-- `VLINE(y0, y1, x)`: the column is bounds-checked, the endpoints ordered and clipped to the panel (R147). -/
def vlinePixels (y0 y1 x : Int) : List Pixel :=
  if x < 0 ∨ x > 127 then []
  else (intRange (max (min y0 y1) 0) (min (max y0 y1) 63)).map fun y => (x, y)

/-- `DRAWLINE x0, y0, x1, y1, width, color` (R141). -/
def execDrawLine (x0 y0 x1 y1 width : Int) (color : Colour) (s : State) : Host.Outcome State Fault Refusal :=
  .next (draw color (linePixels x0 y0 x1 y1 width) s)

/-- `HLINE x0, x1, y, color` (R145). -/
def execHline (x0 x1 y : Int) (color : Colour) (s : State) : Host.Outcome State Fault Refusal :=
  .next (draw color (hlinePixels x0 x1 y) s)

/-- `VLINE y0, y1, x, color` (R147). -/
def execVline (y0 y1 x : Int) (color : Colour) (s : State) : Host.Outcome State Fault Refusal :=
  .next (draw color (vlinePixels y0 y1 x) s)

/-! ### Rectangles -/

/-- The four edges of `DRAWRECT` (R150). -/
def rectPixels (x0 y0 x1 y1 : Int) : List Pixel :=
  hlinePixels x0 x1 y0 ++ hlinePixels x0 x1 y1 ++ vlinePixels y0 y1 x0 ++ vlinePixels y0 y1 x1

/-- The rows of `FILLRECT` (R153). -/
def fillRectPixels (x0 y0 x1 y1 : Int) : List Pixel :=
  (intRange (min y0 y1) (max y0 y1)).flatMap fun y => hlinePixels x0 x1 y

/-- `DRAWRECT x0, y0, x1, y1, color` (R150). -/
def execDrawRect (x0 y0 x1 y1 : Int) (color : Colour) (s : State) : Host.Outcome State Fault Refusal :=
  .next (draw color (rectPixels x0 y0 x1 y1) s)

/-- `FILLRECT x0, y0, x1, y1, color` (R153). -/
def execFillRect (x0 y0 x1 y1 : Int) (color : Colour) (s : State) : Host.Outcome State Fault Refusal :=
  .next (draw color (fillRectPixels x0 y0 x1 y1) s)

/-! ### Triangles -/

/-- The three lines of width 1 of `DRAWTRI` (R156). -/
def triPixels (x0 y0 x1 y1 x2 y2 : Int) : List Pixel :=
  linePixels x0 y0 x1 y1 1 ++ linePixels x1 y1 x2 y2 1 ++ linePixels x2 y2 x0 y0 1

/-- The three lines of `DRAWEQTRI`, from the tip to the base corners and between them (R159). -/
def eqTriPixels (tipX tipY height width : Int) : List Pixel :=
  let hb := eqTriHalfBase height
  let bx0 := tipX - hb
  let bx1 := tipX + hb
  let bottom := tipY + height
  linePixels tipX tipY bx0 bottom width ++ linePixels tipX tipY bx1 bottom width ++
    linePixels bx0 bottom bx1 bottom width

/-- `DRAWTRI x0, y0, x1, y1, x2, y2, color` (R156). -/
def execDrawTri (x0 y0 x1 y1 x2 y2 : Int) (color : Colour) (s : State) :
    Host.Outcome State Fault Refusal :=
  .next (draw color (triPixels x0 y0 x1 y1 x2 y2) s)

/-- `DRAWEQTRI tipX, tipY, height, width, color` (R159). -/
def execDrawEqTri (tipX tipY height width : Int) (color : Colour) (s : State) :
    Host.Outcome State Fault Refusal :=
  .next (draw color (eqTriPixels tipX tipY height width) s)

/-! ### Circles -/

/-- The loop of the octant walk (R163), at most `n` more steps. -/
def stepsLoop : Nat → Int → Int → Int → List Pixel
  | 0, _, _, _ => []
  | n + 1, x, y, d =>
    if x ≤ y then
      (x, y) :: if d < 0 then stepsLoop n (x + 1) y (d + 2 * x + 3)
                else stepsLoop n (x + 1) (y - 1) (d + 2 * (x - y) + 5)
    else []

/-- `steps(r)` (R163). The loop runs at most `r + 1` times: `x` grows by one each time and never exceeds `r`. -/
def circleSteps (r : Int) : List Pixel := stepsLoop (r + 1).toNat 0 r (1 - r)

/-- The eight plots of one step of `DRAWCIRCLE` (R164). -/
def octantPixels (cx cy : Int) (p : Pixel) : List Pixel :=
  [(cx + p.1, cy + p.2), (cx - p.1, cy + p.2), (cx + p.1, cy - p.2), (cx - p.1, cy - p.2),
   (cx + p.2, cy + p.1), (cx - p.2, cy + p.1), (cx + p.2, cy - p.1), (cx - p.2, cy - p.1)]

/-- The plots of `DRAWCIRCLE` (R164). -/
def circlePixels (cx cy r : Int) : List Pixel := (circleSteps r).flatMap (octantPixels cx cy)

/-- The four spans of one step of `FILLCIRCLE` (R168). -/
def spanPixels (cx cy : Int) (p : Pixel) : List Pixel :=
  hlinePixels (cx - p.1) (cx + p.1) (cy + p.2) ++ hlinePixels (cx - p.1) (cx + p.1) (cy - p.2) ++
    hlinePixels (cx - p.2) (cx + p.2) (cy + p.1) ++ hlinePixels (cx - p.2) (cx + p.2) (cy - p.1)

/-- The spans of `FILLCIRCLE` (R168). -/
def fillCirclePixels (cx cy r : Int) : List Pixel := (circleSteps r).flatMap (spanPixels cx cy)

/-- `DRAWCIRCLE cx, cy, r, color` (R164). -/
def execDrawCircle (cx cy r : Int) (color : Colour) (s : State) : Host.Outcome State Fault Refusal :=
  .next (draw color (circlePixels cx cy r) s)

/-- `FILLCIRCLE cx, cy, r, color` (R168). -/
def execFillCircle (cx cy r : Int) (color : Colour) (s : State) : Host.Outcome State Fault Refusal :=
  .next (draw color (fillCirclePixels cx cy r) s)

end Sys2Proof.Machine
end

