-- ==== Sys2Proof/Machine/Text.lean ====
section
/-! DEFINITION. The text operations: DRAWCHAR, DRAWTEXT (spec/42_text_ops.md). -/

namespace Sys2Proof.Machine

/-- The pixels of one glyph at `(x, y)`: a bitmap of width 8 (R184). -/
def charPixels (font : FontTable) (c : Byte) (x y : Int) : List Pixel :=
  bitmapPixels (glyph font c) 8 x y

/-- The pixels of a text at `(x, y)`: character `j` at column `x + 6*j`, every byte drawn (R187, R188). -/
def textPixels (font : FontTable) (text : List Byte) (x y : Int) : List Pixel :=
  (List.range text.length).flatMap fun j : Nat =>
    charPixels font (byteAt text j) (x + Config.textPitch * (j : Int)) y

/-- `DRAWCHAR c, x, y` (R184): no range check of its own (R185). -/
def execDrawChar (c : Byte) (x y : Int) (s : State) : Host.Outcome State Fault Refusal :=
  .next (draw true (charPixels s.font c x y) s)

/-- `DRAWTEXT text, x, y` (R187): a start outside the window raises `TEXT_REJECTED`, also for an empty text. -/
def execDrawText (text : List Byte) (x y : Int) (s : State) : Host.Outcome State Fault Refusal :=
  if inTextWindow x y then .next (draw true (textPixels s.font text x y) s)
  else .next (raise .textRejected s)

end Sys2Proof.Machine
end

