-- ==== Sys2Proof/Machine/Dispatch.lean ====
section
/-! DEFINITION. One arm per instruction. -/

namespace Sys2Proof.Machine

def exec (i : Instr) (s : State) : Host.Outcome State Fault Refusal :=
  match i with
  | .clear => Sys2Proof.Machine.execClear s
  | .setPixel x y color => Sys2Proof.Machine.execSetPixel x y color s
  | .blit bitmap width x y => Sys2Proof.Machine.execBlit bitmap width x y s
  | .replaceAll bitmap64 => Sys2Proof.Machine.execReplaceAll bitmap64 s
  | .drawLine x0 y0 x1 y1 width color => Sys2Proof.Machine.execDrawLine x0 y0 x1 y1 width color s
  | .hline x0 x1 y color => Sys2Proof.Machine.execHline x0 x1 y color s
  | .vline y0 y1 x color => Sys2Proof.Machine.execVline y0 y1 x color s
  | .drawRect x0 y0 x1 y1 color => Sys2Proof.Machine.execDrawRect x0 y0 x1 y1 color s
  | .fillRect x0 y0 x1 y1 color => Sys2Proof.Machine.execFillRect x0 y0 x1 y1 color s
  | .drawTri x0 y0 x1 y1 x2 y2 color => Sys2Proof.Machine.execDrawTri x0 y0 x1 y1 x2 y2 color s
  | .drawEqTri tipX tipY height width color => Sys2Proof.Machine.execDrawEqTri tipX tipY height width color s
  | .drawCircle cx cy r color => Sys2Proof.Machine.execDrawCircle cx cy r color s
  | .fillCircle cx cy r color => Sys2Proof.Machine.execFillCircle cx cy r color s
  | .drawChar c x y => Sys2Proof.Machine.execDrawChar c x y s
  | .drawText text x y => Sys2Proof.Machine.execDrawText text x y s
  | .render startPage endPage => Sys2Proof.Machine.execRender startPage endPage s

end Sys2Proof.Machine
end

