-- ==== Sys2Proof/Machine/Cycle.lean ====
section
/-! DEFINITION. What one step of the machine does (spec/10_state.md R31; 30_encoding.md R81, R92;
43_render_op.md R209). -/

namespace Sys2Proof.Machine

/-- Decodes the command in the operand latch and runs it; a pair that is no command completes `ILLEGAL`
(R28, R92). -/
def runLatched (s : State) : Host.Outcome State Fault Refusal :=
  match decode s.latch with
  | .ok i => exec i s
  | .error _ => .next (raise .illegal s)

/-- One step. An asserted reset is taken first (R301; log 10). An idle block accepts the command offered and runs
it in the same step (R81; log 7), or waits for one (R280; log 8). A waiting `RENDER` takes the sink's answer, or
waits for it (R209; log 8). -/
def cycle (s : State) : Host.Outcome State Fault Refusal :=
  if s.resetIn then .next (takeReset s)
  else match s.rs with
  | .idle =>
    match s.commands with
    | [] => .next s
    | c :: rest => runLatched (accept c rest s)
  | .exec => runLatched s
  | .curWait p endPage => .next (triadAnswered p endPage s)
  | .dataWait p endPage => .next (dataAnswered p endPage s)

end Sys2Proof.Machine
end

