-- ==== Sys2Proof/Machine/Step.lean ====
section
/-! DEFINITION. The step, and how a command is placed where the next step takes it. -/

namespace Sys2Proof.Machine

/-- One step of the machine. -/
def step (s : State) : Host.Outcome State Fault Refusal := cycle s

/-- `s` with the command whose bits are `w` offered next at the command port of an idle block, so that the next
step accepts and runs it (log 6, log 15). -/
def State.withFetchWord (s : State) (nbits w : Nat) : State := offerNext (tableCommand nbits w) s

end Sys2Proof.Machine
end

