-- ==== Sys2Proof/Safety.lean ====
section
/-! DEFINITION. The terms claims are stated in: how a command ends, what it leaves alone, which pixels an operation
covers (independently of the order the machine plots them in), what RENDER sends, what a good state is, what a run
without a failed command is. -/

namespace Sys2Proof.Machine

/-! ### Runs -/

/-- `k` steps of the machine, stopping at the first fault or refusal. -/
def stepN : Nat → State → Host.Outcome State Fault Refusal
  | 0, s => .next s
  | k + 1, s =>
    match step s with
    | .next t => stepN k t
    | .fault r => .fault r
    | .refused r => .refused r

/-! ### How a command ends -/

/-- Between `s` and `t` one command ended with this record: `ST` holds it, it was delivered, the block is idle, the
index moved on by one, no record is owed (R21, R81, R94, R271). -/
def EndedWith (record : BitVec 32) (s t : State) : Prop :=
  t.st = record ∧ t.completions = s.completions ++ [record] ∧ t.rs = .idle ∧ t.index = s.index + 1 ∧
    t.recordOwed = false

/-- Nothing changed but `FB` and what the end of a command writes: the frame of every drawing operation. -/
def SameBesidesFb (s t : State) : Prop :=
  t.font = s.font ∧ t.cur = s.cur ∧ t.latch = s.latch ∧ t.commands = s.commands ∧ t.answers = s.answers ∧
    t.resetIn = s.resetIn ∧ t.transactions = s.transactions ∧ t.resets = s.resets

/-- No command of the run so far failed: the OR over the completion records that R278 keeps outside the block. -/
def NoCommandFailed (s : State) : Prop := ∀ r ∈ s.completions, r = 0x00000000#32

/-- The run has ended: no command is left to offer, the record of the last one accepted has been delivered, and the block is
idle (R311). A run whose last command a reset ended without a record has not ended (R301; log 18). -/
abbrev RunEnded (s : State) : Prop := s.rs = .idle ∧ s.commands = [] ∧ s.recordOwed = false

/-- What a run leaves (R311). -/
structure FinalState where
  fb : Frame
  st : BitVec 32
  cur : BitVec 24
  transactions : List (List Byte)
  completions : List (BitVec 32)
deriving DecidableEq, Repr

/-- The final state of a run that has ended; a run that has not ended has none (R311). -/
def finalState (s : State) : Option FinalState :=
  if RunEnded s then some ⟨s.fb, s.st, s.cur, s.transactions, s.completions⟩ else none

/-! ### Which pixels an operation covers -/

/-- From `fb` to `fb'`, exactly the pixels of the panel that `covers` names took the colour `c`; every other pixel, that
is every other bit of memory, is as before. -/
def Paints (c : Colour) (covers : Int → Int → Prop) (fb fb' : Frame) : Prop :=
  ∀ x y : Nat, x < 128 → y < 64 →
    (covers x y → Frame.pixel fb' x y = c) ∧ (¬ covers x y → Frame.pixel fb' x y = Frame.pixel fb x y)

/-- The bits of a bitmap of `width` column bytes at `(px, py)` (R55, R124). -/
def BitmapCovers (bitmap : List Byte) (width px py x y : Int) : Prop :=
  ∃ i b : Nat, (i : Int) < width ∧ b < 8 ∧ (bitmap.getD i 0).getLsbD b = true ∧ x = px + i ∧ y = py + b

/-- How often the minor coordinate has moved before the pixel at distance `n` along the major axis: it moves after the
step in which the accumulated `dy` first exceeds `dx div 2`, and so on every `dx` (R141, R144). -/
def minorMoves (dx dy n : Int) : Int := (n * dy + (dx - 1) - dx / 2) / dx

/-- A line from `(a0, b0)` to `(a1, b1)` in (major, minor) coordinates with `a0 <= a1`: every major coordinate between the
ends has `width` pixels, from the minor coordinate up (R141). -/
def UpwardLineCovers (a0 b0 a1 b1 width a b : Int) : Prop :=
  a0 ≤ a ∧ a ≤ a1 ∧ ∃ k : Int, 0 ≤ k ∧ k < width ∧
    b = b0 + (if b0 < b1 then 1 else -1) * minorMoves (a1 - a0) (b1 - b0).natAbs (a - a0) + k

/-- The same with the ends in either order: the walk goes up the major axis (R141). -/
def MajorLineCovers (a0 b0 a1 b1 width a b : Int) : Prop :=
  (a0 ≤ a1 ∧ UpwardLineCovers a0 b0 a1 b1 width a b) ∨ (a1 < a0 ∧ UpwardLineCovers a1 b1 a0 b0 width a b)

/-- The pixels of `DRAWLINE`, in closed form: the major axis is y when the line is steep, else x (R141). -/
def LineCovers (x0 y0 x1 y1 width x y : Int) : Prop :=
  ((y1 - y0).natAbs > (x1 - x0).natAbs ∧ MajorLineCovers y0 x0 y1 x1 width y x) ∨
    ((y1 - y0).natAbs ≤ (x1 - x0).natAbs ∧ MajorLineCovers x0 y0 x1 y1 width x y)

/-- The pixels of a row segment (R145). -/
def RowCovers (x0 x1 row x y : Int) : Prop := y = row ∧ min x0 x1 ≤ x ∧ x ≤ max x0 x1

/-- The pixels of a column segment (R147). -/
def ColumnCovers (y0 y1 col x y : Int) : Prop := x = col ∧ min y0 y1 ≤ y ∧ y ≤ max y0 y1

/-- `(a, b)` lies on the circle of radius `r` about the origin, in the octant `0 <= a <= b`: `b` is the integer nearest to
the root of `r*r - a*a`, said without a root (what R163's walk computes). -/
def OnOctant (r a b : Int) : Prop :=
  0 ≤ a ∧ a ≤ b ∧ ((r = 0 ∧ b = 0) ∨ (0 < r ∧ a * a + b * b - b < r * r ∧ r * r ≤ a * a + b * b + b))

/-- The pixels of `DRAWCIRCLE`: the octant and its seven mirror images (R164). -/
def CircleCovers (cx cy r x y : Int) : Prop :=
  OnOctant r (min (x - cx).natAbs (y - cy).natAbs : Nat) (max (x - cx).natAbs (y - cy).natAbs : Nat)

/-- The pixels of `FILLCIRCLE`: those no farther from the centre column than a circle pixel of their row (R168, R169). -/
def DiscCovers (cx cy r x y : Int) : Prop :=
  ∃ u : Int, ((x - cx).natAbs : Int) ≤ u ∧ CircleCovers cx cy r (cx + u) y

/-- The pixels of a text: the glyph of character `j` at `px + 6*j` (R187). -/
def TextCovers (font : FontTable) (text : List Byte) (px py x y : Int) : Prop :=
  ∃ (j : Nat) (i b : Nat), j < text.length ∧ i < 8 ∧ b < 8 ∧
    (fontByte font (text.getD j 0) i).getLsbD b = true ∧ x = px + 6 * j + i ∧ y = py + b

/-- How many pixels are lit. -/
def litCount (fb : Frame) : Nat :=
  ((Finset.range 128 ×ˢ Finset.range 64).filter fun p => Frame.pixel fb p.1 p.2 = true).card

/-! ### What RENDER sends -/

/-- The pages of a range, ascending (R207). -/
def pageRange (p e : Fin 8) : List (Fin 8) := (List.finRange 8).filter fun q => decide (p ≤ q) && decide (q ≤ e)

/-- The two transactions of a page: triad first, data frame second, written from the bytes of R204 and R205. -/
def pageTransactions (fb : Frame) (q : Fin 8) : List (List Byte) :=
  [[BitVec.ofNat 8 (0xB0 + q.val), 0x00, 0x10],
   0x40 :: (List.range 128).map fun x => BitVec.ofNat 8 ((Frame.word fb x).toNat / 2 ^ (8 * q.val) % 256)]

/-- All transactions of a whole `RENDER` (R207, R211). -/
def renderTransactions (fb : Frame) (p e : Fin 8) : List (List Byte) :=
  (pageRange p e).flatMap (pageTransactions fb)

/-- The answers of a good sink to `n` pages: 3 and 129 for each (R210). -/
def goodAnswers (n : Nat) : List SinkAnswer := (List.replicate n [SinkAnswer.took 3, SinkAnswer.took 129]).flatten

/-- An answer inside the interface to a transaction of `len` bytes (R95). -/
def LegalAnswer (len : Nat) (a : SinkAnswer) : Prop := a = .fail ∨ ∃ n, n ≤ len ∧ a = .took n

/-- The record of a failed transaction of page `p`, as R208 writes it. -/
def sinkErrorWord (phase : Bool) (p : Fin 8) (expected : Nat) (a : SinkAnswer) : BitVec 32 :=
  let actual := match a with
    | .took n => n
    | .fail => 0
  let fail := match a with
    | .took _ => 0
    | .fail => 1
  3#32 ||| BitVec.ofNat 32 phase.toNat <<< 4 ||| BitVec.ofNat 32 p.val <<< 5 ||| BitVec.ofNat 32 expected <<< 8 |||
    BitVec.ofNat 32 actual <<< 16 ||| BitVec.ofNat 32 fail <<< 24

/-! ### What one command does to the Frame Buffer -/

/-- `FB` after an instruction that ends in one step, from `FB` and `FONT` alone. -/
def frameAfter (font : FontTable) (i : Instr) (fb : Frame) : Frame :=
  match exec i { State.reset with fb := fb, font := font } with
  | .next t => t.fb
  | .fault _ => fb
  | .refused _ => fb

/-- The same for a command; a pair that is no command leaves `FB` as it is (R92). -/
def frameAfterCommand (font : FontTable) (c : Command) (fb : Frame) : Frame :=
  match decode c with
  | .ok i => frameAfter font i fb
  | .error _ => fb

/-- The command is not a `RENDER`. -/
def NotRender (c : Command) : Prop := ∀ p e, decode c ≠ .ok (.render p e)

/-! ### Good states -/

/-- A record that R94 allows: one of the four without information, or `SINK_ERROR` with the fields of R29. -/
def LegalRecord (r : BitVec 32) : Prop :=
  r = 0#32 ∨ r = 1#32 ∨ r = 2#32 ∨ r = 4#32 ∨
    (stCode r = 3 ∧ stReserved r = 0 ∧ stExpected r = (if stPhase r then 129 else 3) ∧
      (stFail r = true → stActual r = 0))

/-- A transaction that R95 allows: a triad of a page, or a control byte with 128 data bytes (R204, R205). -/
def LegalTransaction (t : List Byte) : Prop :=
  (∃ p : Nat, p ≤ 7 ∧ t = [BitVec.ofNat 8 (0xB0 + p), 0x00, 0x10]) ∨ (t.length = 129 ∧ t.head? = some 0x40)

/-- What `RS` says of the rest of the state (R30, R31, R209): a waiting `RENDER` has its page in its range, that page's triad
in `CUR`, and the transaction it waits for last on the sink port, with the data still as `FB` holds it. That its record is
marked as owed is the model's choice (log 18), and that no command is left in `EXEC` between two steps is the model's
reading (log 7). -/
def RunStateFits (s : State) : Prop :=
  match s.rs with
  | .idle => True
  | .exec => False
  | .curWait p e => s.recordOwed = true ∧ p ≤ e ∧ s.cur = BitVec.ofNat 24 (0x1000B0 + p.val) ∧
      s.transactions.getLast? = some [BitVec.ofNat 8 (0xB0 + p.val), 0x00, 0x10]
  | .dataWait p e => s.recordOwed = true ∧ p ≤ e ∧ s.cur = BitVec.ofNat 24 (0x1000B0 + p.val) ∧
      s.transactions.getLast? = some (0x40 :: (List.range 128).map fun x =>
        BitVec.ofNat 8 ((Frame.word s.fb x).toNat / 2 ^ (8 * p.val) % 256))

/-- The invariant of the machine. -/
structure Inv (s : State) : Prop where
  /-- `ST` holds a legal record (R29, R94). -/
  status : LegalRecord s.st
  /-- Every record delivered is legal (R94). -/
  records : ∀ r ∈ s.completions, LegalRecord r
  /-- One record for each completed command (R21, R94). -/
  count : s.index = s.completions.length
  /-- Every transaction emitted is legal (R95). -/
  sent : ∀ t ∈ s.transactions, LegalTransaction t
  /-- The run state fits the rest (R31). -/
  running : RunStateFits s

end Sys2Proof.Machine
end

