-- ==== Sys2Proof/Certificates/Slice0/Obligations.lean ====
section
/-! DEFINITION. The statements for the provers. Each docstring names the rules of the spec it rests on. In the clauses
about a command word, `commandWord opc c a0 a1 a2 a3 a4 a5` is the word with these fields, `RSV` and `A6` zero (R82). -/

open Sys2Proof Sys2Proof.Machine

/-! ### Reset -/

/-- R34, R300: after reset the block is idle and `ST` is 0; R27: `FONT` has its constant contents; R21: the index starts at 0.
That nothing is offered, answered, accepted, delivered or emitted yet is the model's choice (logs 6, 10, 13, 18). -/
def Obligations.ResetIsIdleWithStatusZero : Prop :=
  State.reset.rs = .idle ∧ State.reset.st = 0x00000000#32 ∧
    (∀ c : Byte, ∀ i, i < 8 → fontByte State.reset.font c i = Config.font (8 * c.toNat + i)) ∧
    State.reset.index = 0 ∧ State.reset.resetIn = false ∧ State.reset.commands = [] ∧ State.reset.answers = [] ∧
    State.reset.completions = [] ∧ State.reset.transactions = [] ∧ State.reset.recordOwed = false

/-- R300, R301: a reset event is taken whatever the block does. The block is idle with `ST` 0 and `FONT` as always; no record
is delivered for a running command; what was handed to the sink stays handed; the answer of a transaction that waited
is not used for a later one. That the index and the command port keep their values, and that the record of a command
the reset ended stays owed, is the model's choice (logs 10, 18). -/
def Obligations.ResetEventEndsWhateverRuns : Prop :=
  ∀ s : State, s.resetIn = true → ∃ t, step s = .next t ∧ t.rs = .idle ∧ t.st = 0x00000000#32 ∧ t.font = s.font ∧
    t.resetIn = false ∧ t.completions = s.completions ∧ t.transactions = s.transactions ∧
    t.index = s.index ∧ t.commands = s.commands ∧ t.recordOwed = s.recordOwed ∧
    (∀ p e, s.rs = .curWait p e ∨ s.rs = .dataWait p e → t.answers = s.answers.tail) ∧
    (s.rs = .idle ∨ s.rs = .exec → t.answers = s.answers)

/-! ### Encoding -/

/-- R87: the match of every row of the opcode map is the opcode of R86 with everything else 0, the rows are 16, and no word
matches two of them. -/
def Obligations.AtMostOneRowMatchesAWord : Prop :=
  opcodeMap.map (fun r => r.pattern.toNat) =
      [0x01, 0x02, 0x03, 0x04, 0x10, 0x11, 0x12, 0x13, 0x14, 0x15, 0x16, 0x17, 0x18, 0x20, 0x21, 0x30] ∧
    ∀ (w : CommandWord) (r r' : OpcodeRow), r ∈ opcodeMap → r' ∈ opcodeMap →
      w &&& r.mask = r.pattern → w &&& r'.mask = r'.pattern → r = r'

/-- R82, R86, V-ENC-1: words written out from the spec decode to the instructions they stand for, one of each family. -/
def Obligations.SpecWordsDecode : Prop :=
  decode ⟨0x000000000000000000000005FFFF0102, []⟩ = .ok (.setPixel (-1) 5 true) ∧
  decode ⟨0x00000000000000000001FFFD00050003, [0xFF]⟩ = .ok (.blit [0xFF] 1 5 (-3)) ∧
  decode ⟨0x00000000000200050002000000000110, []⟩ = .ok (.drawLine 0 0 2 5 2 true) ∧
  decode ⟨0x0000000000000001FFF8000A000A0116, []⟩ = .ok (.drawEqTri 10 10 (-8) 1 true) ∧
  decode ⟨0x00000000000000000008000200410020, []⟩ = .ok (.drawChar 65 2 8) ∧
  decode ⟨0x00000000000000000002000000800021, [0x48, 0x69]⟩ = .ok (.drawText [0x48, 0x69] 128 0) ∧
  decode ⟨0x00000000000000000000000200050030, []⟩ = .ok (.render 5 2)

/-- R82 to R86, R90: decoding the encoding of a well-formed instruction gives it back, every operand at every value. -/
def Obligations.DecodeOfEncode : Prop := ∀ i : Instr, i.wf = true → decode (encode i) = .ok i

/-- R85, R90, R92: a command decodes to one instruction only if it is that instruction's encoding, bit for bit; so no bit of a
command word is ignored, and what is decoded is well formed. -/
def Obligations.EncodeOfDecode : Prop := ∀ (c : Command) (i : Instr), decode c = .ok i → encode i = c ∧ i.wf = true

/-- R93: every `OPC` but the 16 of R86 is illegal; R81, R92: such a command completes `ILLEGAL` and changes nothing but `ST`
(the latch holds the command, R28). That this takes the one step that accepts it is log 7. -/
def Obligations.ReservedOpcodesCompleteIllegal : Prop :=
  ∀ (s : State) (c : Command) (rest : List Command), s.resetIn = false → s.rs = .idle → s.commands = c :: rest →
    (opcodeField c.cw).toNat ∉
      [0x01, 0x02, 0x03, 0x04, 0x10, 0x11, 0x12, 0x13, 0x14, 0x15, 0x16, 0x17, 0x18, 0x20, 0x21, 0x30] →
    ∃ t, step s = .next t ∧ EndedWith 0x00000004#32 s t ∧ t.fb = s.fb ∧
      SameBesidesFb { s with latch := c, commands := rest } t

/-- R92, R271, R272: whatever pair does not decode completes `ILLEGAL`, in the step that accepts it (log 7); `FB`, `CUR` are
untouched, no transaction is emitted. The decoder refuses exactly the words no row of the map matches (R85, R87), and the words
whose payload has not the length R90 requires (R91). -/
def Obligations.IllegalCommandsChangeNothingButStatus : Prop :=
  (∀ (s : State) (c : Command) (rest : List Command) (e : Illegal), s.resetIn = false → s.rs = .idle →
    s.commands = c :: rest → decode c = .error e →
    ∃ t, step s = .next t ∧ EndedWith 0x00000004#32 s t ∧ t.fb = s.fb ∧
      SameBesidesFb { s with latch := c, commands := rest } t) ∧
  (∀ c : Command, decode c = .error .noRow ↔ ∀ r ∈ opcodeMap, c.cw &&& r.mask ≠ r.pattern) ∧
  (∀ c : Command, decode c = .error .payloadLength ↔
    ∃ r ∈ opcodeMap, c.cw &&& r.mask = r.pattern ∧ c.pl.length ≠ requiredLength r.op c.cw)

/-! ### The step -/

/-- An idle block accepts the command offered first (R81) into the latch (R28) and runs the instruction its word and payload
decode to (R92). That acceptance and the whole of exec are one step is the model's reading (log 7, DEDUCED from R59, R81,
R209 and R310; R31 gives a running drawing operation a run state of its own): the step is exec of that instruction, at
the state in which the command is latched and taken from the port, a record is owed and the run state has left idle. -/
def Obligations.StepRunsTheDecodedCommand : Prop :=
  ∀ (s : State) (c : Command) (rest : List Command) (i : Instr), s.resetIn = false → s.rs = .idle →
    s.commands = c :: rest → decode c = .ok i →
    step s = exec i { s with latch := c, commands := rest, rs := .exec, recordOwed := true }

/-- The model's word placement (logs 6, 15): with a command placed by withFetchWord the next step runs it. -/
def Obligations.FetchedWordRunsNext : Prop :=
  ∀ (s : State) (nbits w : Nat) (i : Instr), decodeTableWord nbits w = some i →
    step (s.withFetchWord nbits w) =
      exec i { s with latch := tableCommand nbits w, rs := .exec, resetIn := false, recordOwed := true }

/-- R81, R280: a command is taken from the port only by an idle block, the one offered first, and none is lost: while the block
is not idle the port is as it was. That an idle block without a command takes a step to the same state is the model's
choice (log 8). -/
def Obligations.OnlyAnIdleBlockAcceptsACommand : Prop :=
  ∀ s t : State, step s = .next t →
    (s.rs ≠ .idle → t.commands = s.commands) ∧
    (s.rs = .idle → s.resetIn = false → t.commands = s.commands.tail) ∧
    (s.rs = .idle → s.resetIn = false → s.commands = [] → t = s)

/-- The block has no trap and no access that faults (R25, R57, R277), so no step of the model stops. That a block that can only
wait has a next state too, the same one, is the model's choice (log 8): an idle block without a command, and a waiting
`RENDER` without an answer, which R209 calls a state with no enabled step. -/
def Obligations.EveryStepHasANextState : Prop := ∀ s : State, ∃ t, step s = .next t

/-! ### The pixel primitive and the frame-buffer operations -/

/-- R121: `plot` does nothing off the panel; on it, it sets or clears bit `y` of `FB[x]` and changes nothing else. It is
idempotent; two of one colour commute; of two colours on one pixel the later wins. -/
def Obligations.PlotChangesOnePixel : Prop :=
  ∀ (x y : Int) (c : Colour) (fb : Frame),
    ((x < 0 ∨ x > 127 ∨ y < 0 ∨ y > 63) → plot x y c fb = fb) ∧
    ((0 ≤ x ∧ x ≤ 127 ∧ 0 ≤ y ∧ y ≤ 63) →
      Frame.word (plot x y c fb) x.toNat =
        (if c then Frame.word fb x.toNat ||| (1#64 <<< y.toNat) else Frame.word fb x.toNat &&& ~~~(1#64 <<< y.toNat)) ∧
      ∀ x' : Nat, x' < 128 → (x' : Int) ≠ x → Frame.word (plot x y c fb) x' = Frame.word fb x') ∧
    plot x y c (plot x y c fb) = plot x y c fb ∧
    (∀ x' y' : Int, plot x y c (plot x' y' c fb) = plot x' y' c (plot x y c fb)) ∧
    plot x y c (plot x y (!c) fb) = plot x y c fb

/-- R120: `CLEAR` zeroes all columns and completes OK; every page of what it leaves is sent as 128 zero bytes. -/
def Obligations.ClearZeroesEveryWord : Prop :=
  decode ⟨commandWord 0x01 false 0 0 0 0 0 0, []⟩ = .ok .clear ∧
  ∀ s : State, ∃ t, exec .clear s = .next t ∧ (∀ x, x < 128 → Frame.word t.fb x = 0x0000000000000000#64) ∧
    (∀ p : Fin 8, dataFrame t.fb p = 0x40 :: List.replicate 128 0x00) ∧
    EndedWith 0x00000000#32 s t ∧ SameBesidesFb s t

/-- R122: `SETPIXEL` gives its colour to the pixel at (x, y), to none if it is off the panel, and completes OK. -/
def Obligations.SetPixelWritesItsPixel : Prop :=
  (∀ (a0 a1 : BitVec 16) (c : Colour),
    decode ⟨commandWord 0x02 c a0 a1 0 0 0 0, []⟩ = .ok (.setPixel a0.toInt a1.toInt c)) ∧
  ∀ (px py : Int) (c : Colour) (s : State), ∃ t, exec (.setPixel px py c) s = .next t ∧
    Paints c (fun x y => x = px ∧ y = py) s.fb t.fb ∧ EndedWith 0x00000000#32 s t ∧ SameBesidesFb s t

/-- R124: `BLIT` sets the pixels of the bitmap's set bits, bit `b` of byte `i` at `(x+i, y+b)`, clears none, and completes
OK; a payload of another length than `max(width, 0)` is no command. -/
def Obligations.BlitSetsTheBitsOfItsBitmap : Prop :=
  (∀ (a0 a1 a2 : BitVec 16) (pl : List Byte), decode ⟨commandWord 0x03 false a0 a1 a2 0 0 0, pl⟩ =
    if pl.length = (max a2.toInt 0).toNat then .ok (.blit pl a2.toInt a0.toInt a1.toInt) else .error .payloadLength) ∧
  ∀ (bitmap : List Byte) (width px py : Int) (s : State), ∃ t, exec (.blit bitmap width px py) s = .next t ∧
    Paints true (BitmapCovers bitmap width px py) s.fb t.fb ∧ EndedWith 0x00000000#32 s t ∧ SameBesidesFb s t

/-- R125: the word form of `BLIT`: column `x+i` of the panel is ORed with byte `i` shifted left by `y`, or right by `-y`; the
other columns keep their words. -/
def Obligations.BlitWordForm : Prop :=
  ∀ (bitmap : List Byte) (width px py : Int) (s : State), ∃ t, exec (.blit bitmap width px py) s = .next t ∧
    ∀ col : Nat, col < 128 →
      ((px ≤ col ∧ (col : Int) < px + width) → Frame.word t.fb col = Frame.word s.fb col |||
        (if 0 ≤ py then (bitmap.getD ((col : Int) - px).toNat 0).setWidth 64 <<< py.toNat
         else (bitmap.getD ((col : Int) - px).toNat 0).setWidth 64 >>> (-py).toNat)) ∧
      (¬ (px ≤ col ∧ (col : Int) < px + width) → Frame.word t.fb col = Frame.word s.fb col)

/-- R126 with R54: `REPLACEALL` writes column `x` from payload bytes `8x` to `8x + 7`, least significant first, and completes
OK; so pixel (x, y) is bit `y mod 8` of payload byte `8x + y div 8`. With a payload of another length than 1024 it completes
ILLEGAL and `FB` is unchanged; that the step which accepts such a command also completes it is the model's reading (log 7). -/
def Obligations.ReplaceAllTakesThePayload : Prop :=
  (∀ pl : List Byte, decode ⟨commandWord 0x04 false 0 0 0 0 0 0, pl⟩ =
    if pl.length = 1024 then .ok (.replaceAll pl) else .error .payloadLength) ∧
  (∀ (pl : List Byte) (s : State), pl.length = 1024 → ∃ t, exec (.replaceAll pl) s = .next t ∧
    (∀ x, x < 128 → (Frame.word t.fb x).toNat =
      ((List.range 8).map fun k => (pl.getD (8 * x + k) 0).toNat * 2 ^ (8 * k)).sum) ∧
    (∀ x y : Nat, x < 128 → y < 64 → some (Frame.pixel t.fb x y) = pl[8 * x + y / 8]?.map fun b => b.getLsbD (y % 8)) ∧
    EndedWith 0x00000000#32 s t ∧ SameBesidesFb s t) ∧
  ∀ (pl : List Byte) (s : State) (rest : List Command), pl.length ≠ 1024 → s.resetIn = false → s.rs = .idle →
    s.commands = ⟨commandWord 0x04 false 0 0 0 0 0 0, pl⟩ :: rest →
    ∃ t, step s = .next t ∧ t.fb = s.fb ∧ EndedWith 0x00000004#32 s t

/-! ### Lines -/

/-- R141, R142, R144: the pixels `DRAWLINE` draws, in closed form: every major coordinate between the ends has `width` pixels
from the minor coordinate on, which moves when the accumulated minor distance first exceeds half the major one. -/
def Obligations.DrawLineClosedForm : Prop :=
  (∀ (a0 a1 a2 a3 a4 : BitVec 16) (c : Colour), decode ⟨commandWord 0x10 c a0 a1 a2 a3 a4 0, []⟩ =
    .ok (.drawLine a0.toInt a1.toInt a2.toInt a3.toInt a4.toInt c)) ∧
  ∀ (x0 y0 x1 y1 width : Int) (c : Colour) (s : State), ∃ t, exec (.drawLine x0 y0 x1 y1 width c) s = .next t ∧
    Paints c (LineCovers x0 y0 x1 y1 width) s.fb t.fb ∧ EndedWith 0x00000000#32 s t ∧ SameBesidesFb s t

/-- R143 (a): a line and the line with its ends exchanged are the same operation. -/
def Obligations.DrawLineIsSymmetricInItsEnds : Prop :=
  ∀ (x0 y0 x1 y1 width : Int) (c : Colour) (s : State),
    exec (.drawLine x0 y0 x1 y1 width c) s = exec (.drawLine x1 y1 x0 y0 width c) s

/-- R143 (b): with width 1 the positions plotted are `max(abs(x1-x0), abs(y1-y0)) + 1`, all different, one for each major
coordinate, and both ends are among them. -/
def Obligations.DrawLineOfWidthOnePlotsOnePixelPerMajorCoordinate : Prop :=
  ∀ x0 y0 x1 y1 : Int,
    (linePixels x0 y0 x1 y1 1).length = max (x1 - x0).natAbs (y1 - y0).natAbs + 1 ∧
    (x0, y0) ∈ linePixels x0 y0 x1 y1 1 ∧ (x1, y1) ∈ linePixels x0 y0 x1 y1 1 ∧
    ((y1 - y0).natAbs ≤ (x1 - x0).natAbs →
      ∀ x, min x0 x1 ≤ x → x ≤ max x0 x1 → ∃! y, (x, y) ∈ linePixels x0 y0 x1 y1 1) ∧
    ((x1 - x0).natAbs < (y1 - y0).natAbs →
      ∀ y, min y0 y1 ≤ y → y ≤ max y0 y1 → ∃! x, (x, y) ∈ linePixels x0 y0 x1 y1 1)

/-- R143 (c), (d): with width 1 a horizontal line is `HLINE`, a vertical one is `VLINE`, and one with equal distances is the
exact diagonal. -/
def Obligations.DrawLineSpecialDirections : Prop :=
  (∀ (x0 x1 y : Int) (c : Colour) (s : State), exec (.drawLine x0 y x1 y 1 c) s = exec (.hline x0 x1 y c) s) ∧
  (∀ (x y0 y1 : Int) (c : Colour) (s : State), exec (.drawLine x y0 x y1 1 c) s = exec (.vline y0 y1 x c) s) ∧
  (∀ (x0 y0 : Int) (n : Nat) (c : Colour) (s : State), ∃ t, exec (.drawLine x0 y0 (x0 + n) (y0 + n) 1 c) s = .next t ∧
    Paints c (fun x y => ∃ k : Nat, k ≤ n ∧ x = x0 + k ∧ y = y0 + k) s.fb t.fb) ∧
  (∀ (x0 y0 : Int) (n : Nat) (c : Colour) (s : State), ∃ t, exec (.drawLine x0 y0 (x0 + n) (y0 - n) 1 c) s = .next t ∧
    Paints c (fun x y => ∃ k : Nat, k ≤ n ∧ x = x0 + k ∧ y = y0 - k) s.fb t.fb)

/-- R145, R146: `HLINE` draws the row segment between its ends, on the panel, for either order of the ends. -/
def Obligations.HlineDrawsItsRowSegment : Prop :=
  (∀ (a0 a1 a2 : BitVec 16) (c : Colour),
    decode ⟨commandWord 0x11 c a0 a1 a2 0 0 0, []⟩ = .ok (.hline a0.toInt a1.toInt a2.toInt c)) ∧
  ∀ (x0 x1 row : Int) (c : Colour) (s : State), ∃ t, exec (.hline x0 x1 row c) s = .next t ∧
    Paints c (RowCovers x0 x1 row) s.fb t.fb ∧ EndedWith 0x00000000#32 s t ∧ SameBesidesFb s t

/-- R147: `VLINE` draws the column segment between its ends, on the panel, for either order of the ends. -/
def Obligations.VlineDrawsItsColumnSegment : Prop :=
  (∀ (a0 a1 a2 : BitVec 16) (c : Colour),
    decode ⟨commandWord 0x12 c a0 a1 a2 0 0 0, []⟩ = .ok (.vline a0.toInt a1.toInt a2.toInt c)) ∧
  ∀ (y0 y1 col : Int) (c : Colour) (s : State), ∃ t, exec (.vline y0 y1 col c) s = .next t ∧
    Paints c (ColumnCovers y0 y1 col) s.fb t.fb ∧ EndedWith 0x00000000#32 s t ∧ SameBesidesFb s t

/-- R148: the word form of `VLINE`: with `a` and `b` the clipped ends and `m` the mask of bits `a..b`, the word is ORed with
`m` or has `m` cleared; only that word changes. -/
def Obligations.VlineWordForm : Prop :=
  ∀ (y0 y1 : Int) (col : Nat) (c : Colour) (s : State), col < 128 → ∃ t, exec (.vline y0 y1 col c) s = .next t ∧
    (∀ x, x < 128 → x ≠ col → Frame.word t.fb x = Frame.word s.fb x) ∧
    (max (min y0 y1) 0 ≤ min (max y0 y1) 63 →
      Frame.word t.fb col =
        let a := (max (min y0 y1) 0).toNat
        let b := (min (max y0 y1) 63).toNat
        let m := BitVec.ofNat 64 ((2 ^ (b - a + 1) - 1) * 2 ^ a)
        if c then Frame.word s.fb col ||| m else Frame.word s.fb col &&& ~~~m) ∧
    (¬ max (min y0 y1) 0 ≤ min (max y0 y1) 63 → Frame.word t.fb col = Frame.word s.fb col)

/-! ### Rectangles, triangles -/

/-- R150: `DRAWRECT` draws the four edges through its two corners. -/
def Obligations.DrawRectDrawsItsFourEdges : Prop :=
  (∀ (a0 a1 a2 a3 : BitVec 16) (c : Colour), decode ⟨commandWord 0x13 c a0 a1 a2 a3 0 0, []⟩ =
    .ok (.drawRect a0.toInt a1.toInt a2.toInt a3.toInt c)) ∧
  ∀ (x0 y0 x1 y1 : Int) (c : Colour) (s : State), ∃ t, exec (.drawRect x0 y0 x1 y1 c) s = .next t ∧
    Paints c (fun x y => RowCovers x0 x1 y0 x y ∨ RowCovers x0 x1 y1 x y ∨ ColumnCovers y0 y1 x0 x y ∨
      ColumnCovers y0 y1 x1 x y) s.fb t.fb ∧ EndedWith 0x00000000#32 s t ∧ SameBesidesFb s t

/-- R151: with both corners on the panel, on a clear buffer, the outline has `2*(w+h)` lit pixels when `w >= 1` and `h >= 1`,
and `max(w,h) + 1` otherwise. -/
def Obligations.DrawRectPixelCount : Prop :=
  ∀ (x0 y0 x1 y1 : Nat) (s : State), x0 < 128 → y0 < 64 → x1 < 128 → y1 < 64 →
    (∀ x, x < 128 → Frame.word s.fb x = 0) →
    ∃ t, exec (.drawRect x0 y0 x1 y1 true) s = .next t ∧
      litCount t.fb =
        let w := ((x1 : Int) - x0).natAbs
        let h := ((y1 : Int) - y0).natAbs
        if 1 ≤ w ∧ 1 ≤ h then 2 * (w + h) else max w h + 1

/-- R153: `FILLRECT` fills every panel pixel between its two corners, inclusive, for every order of the corners. -/
def Obligations.FillRectFillsItsBox : Prop :=
  (∀ (a0 a1 a2 a3 : BitVec 16) (c : Colour), decode ⟨commandWord 0x14 c a0 a1 a2 a3 0 0, []⟩ =
    .ok (.fillRect a0.toInt a1.toInt a2.toInt a3.toInt c)) ∧
  ∀ (x0 y0 x1 y1 : Int) (c : Colour) (s : State), ∃ t, exec (.fillRect x0 y0 x1 y1 c) s = .next t ∧
    Paints c (fun x y => min x0 x1 ≤ x ∧ x ≤ max x0 x1 ∧ min y0 y1 ≤ y ∧ y ≤ max y0 y1) s.fb t.fb ∧
    EndedWith 0x00000000#32 s t ∧ SameBesidesFb s t

/-- R156: `DRAWTRI` draws the three edges as lines of width 1; the result does not depend on the order in which the vertices
are given. -/
def Obligations.DrawTriDrawsItsThreeEdges : Prop :=
  (∀ (a0 a1 a2 a3 a4 a5 : BitVec 16) (c : Colour), decode ⟨commandWord 0x15 c a0 a1 a2 a3 a4 a5, []⟩ =
    .ok (.drawTri a0.toInt a1.toInt a2.toInt a3.toInt a4.toInt a5.toInt c)) ∧
  ∀ (x0 y0 x1 y1 x2 y2 : Int) (c : Colour) (s : State),
    (∃ t, exec (.drawTri x0 y0 x1 y1 x2 y2 c) s = .next t ∧
      Paints c (fun x y => LineCovers x0 y0 x1 y1 1 x y ∨ LineCovers x1 y1 x2 y2 1 x y ∨ LineCovers x2 y2 x0 y0 1 x y)
        s.fb t.fb ∧ EndedWith 0x00000000#32 s t ∧ SameBesidesFb s t) ∧
    exec (.drawTri x0 y0 x1 y1 x2 y2 c) s = exec (.drawTri x1 y1 x2 y2 x0 y0 c) s ∧
    exec (.drawTri x0 y0 x1 y1 x2 y2 c) s = exec (.drawTri x1 y1 x0 y0 x2 y2 c) s

/-- R159, R160: `DRAWEQTRI` draws the lines from the tip to the base corners and between them, with the half-base
`height * 1732 / 2000`, its magnitude rounded down for either sign, the base `height` rows below the tip. -/
def Obligations.DrawEqTriDrawsItsThreeLines : Prop :=
  (∀ (a0 a1 a2 a3 : BitVec 16) (c : Colour), decode ⟨commandWord 0x16 c a0 a1 a2 a3 0 0, []⟩ =
    .ok (.drawEqTri a0.toInt a1.toInt a2.toInt a3.toInt c)) ∧
  ∀ (tipX tipY height width : Int) (c : Colour) (s : State), ∃ t,
    exec (.drawEqTri tipX tipY height width c) s = .next t ∧
    (∀ hb : Int, hb = (if height < 0 then -1 else 1) * ((height.natAbs * 1732 / 2000 : Nat) : Int) →
      Paints c (fun x y => LineCovers tipX tipY (tipX - hb) (tipY + height) width x y ∨
        LineCovers tipX tipY (tipX + hb) (tipY + height) width x y ∨
        LineCovers (tipX - hb) (tipY + height) (tipX + hb) (tipY + height) width x y) s.fb t.fb) ∧
    EndedWith 0x00000000#32 s t ∧ SameBesidesFb s t

/-! ### Circles -/

/-- R163: the octant walk yields exactly the pairs of the octant whose second coordinate is the integer nearest to the circle,
so every pair is within half a pixel of it; and its loop has ended when the model's bound on it is reached. -/
def Obligations.OctantWalkFollowsTheCircle : Prop :=
  (∀ r a b : Int, (a, b) ∈ circleSteps r ↔ OnOctant r a b) ∧
  (∀ r a b : Int, (a, b) ∈ circleSteps r → r * r - r ≤ a * a + b * b ∧ a * a + b * b ≤ r * r + r) ∧
  (∀ (r : Int) (n : Nat), (r + 1).toNat ≤ n → stepsLoop n 0 r (1 - r) = circleSteps r)

/-- R164, R165: `DRAWCIRCLE` draws the octant of R163 and its seven mirror images. -/
def Obligations.DrawCircleDrawsItsEightOctants : Prop :=
  (∀ (a0 a1 a2 : BitVec 16) (c : Colour),
    decode ⟨commandWord 0x17 c a0 a1 a2 0 0 0, []⟩ = .ok (.drawCircle a0.toInt a1.toInt a2.toInt c)) ∧
  ∀ (cx cy r : Int) (c : Colour) (s : State), ∃ t, exec (.drawCircle cx cy r c) s = .next t ∧
    Paints c (CircleCovers cx cy r) s.fb t.fb ∧ EndedWith 0x00000000#32 s t ∧ SameBesidesFb s t

/-- R168, R169: `FILLCIRCLE` fills the pixels no farther from the centre column than a circle pixel of their row. -/
def Obligations.FillCircleFillsBetweenCirclePixels : Prop :=
  (∀ (a0 a1 a2 : BitVec 16) (c : Colour),
    decode ⟨commandWord 0x18 c a0 a1 a2 0 0 0, []⟩ = .ok (.fillCircle a0.toInt a1.toInt a2.toInt c)) ∧
  ∀ (cx cy r : Int) (c : Colour) (s : State), ∃ t, exec (.fillCircle cx cy r c) s = .next t ∧
    Paints c (DiscCovers cx cy r) s.fb t.fb ∧ EndedWith 0x00000000#32 s t ∧ SameBesidesFb s t

/-- R169, of what `FILLCIRCLE` draws on a buffer that has nowhere its colour: it has every pixel `DRAWCIRCLE` draws there; each row
it touches is within `r` of the centre row and is one unbroken span centred on the centre column, cut at the panel's
edges; and with the centre column on the panel every row of the panel within `r` is touched. -/
def Obligations.DiscHasNoHoles : Prop :=
  ∀ (cx cy r : Int) (c : Colour) (s : State),
    (∀ x y : Nat, x < 128 → y < 64 → Frame.pixel s.fb x y = !c) →
    ∃ circle disc, exec (.drawCircle cx cy r c) s = .next circle ∧ exec (.fillCircle cx cy r c) s = .next disc ∧
      ∀ x y : Nat, x < 128 → y < 64 →
        (Frame.pixel circle.fb x y = c → Frame.pixel disc.fb x y = c) ∧
        (Frame.pixel disc.fb x y = c → ((y - cy).natAbs : Int) ≤ r ∧
          ∀ x' : Nat, x' < 128 → (x' - cx).natAbs ≤ (x - cx).natAbs → Frame.pixel disc.fb x' y = c) ∧
        ((x : Int) = cx → ((y - cy).natAbs : Int) ≤ r → Frame.pixel disc.fb x y = c)

/-! ### Text -/

/-- R184, R185: `DRAWCHAR` is `BLIT` of the glyph's eight bytes with width 8, with no range check; it completes OK. A word with
`A0` above 255 is no command. -/
def Obligations.DrawCharBlitsItsGlyph : Prop :=
  (∀ a0 a1 a2 : BitVec 16, decode ⟨commandWord 0x20 false a0 a1 a2 0 0 0, []⟩ =
    if a0.toNat ≤ 255 then .ok (.drawChar (BitVec.ofNat 8 a0.toNat) a1.toInt a2.toInt) else .error .noRow) ∧
  ∀ (c : Byte) (px py : Int) (s : State), ∃ t, exec (.drawChar c px py) s = .next t ∧
    Paints true (fun x y => ∃ i b : Nat, i < 8 ∧ b < 8 ∧ (fontByte s.font c i).getLsbD b = true ∧
      x = px + i ∧ y = py + b) s.fb t.fb ∧ EndedWith 0x00000000#32 s t ∧ SameBesidesFb s t ∧
    exec (.drawChar c px py) s = exec (.blit ((List.range 8).map (fontByte s.font c)) 8 px py) s

/-- R187, R188: `DRAWTEXT` from a start in `[0,127] x [0,55]` draws the glyph of every byte at a pitch of 6 columns, OK; any
other start rejects the text, also an empty one, and draws nothing. A word with `A2` above 255, or a payload of another
length than `len`, is no command. -/
def Obligations.DrawTextDrawsEveryCharacterOrRejectsTheText : Prop :=
  (∀ (a0 a1 a2 : BitVec 16) (pl : List Byte), decode ⟨commandWord 0x21 false a0 a1 a2 0 0 0, pl⟩ =
    if 255 < a2.toNat then .error .noRow
    else if pl.length = a2.toNat then .ok (.drawText pl a0.toInt a1.toInt) else .error .payloadLength) ∧
  (∀ (text : List Byte) (px py : Int) (s : State), 0 ≤ px → px ≤ 127 → 0 ≤ py → py ≤ 55 →
    ∃ t, exec (.drawText text px py) s = .next t ∧
      Paints true (TextCovers s.font text px py) s.fb t.fb ∧ EndedWith 0x00000000#32 s t ∧ SameBesidesFb s t) ∧
  ∀ (text : List Byte) (px py : Int) (s : State), (px < 0 ∨ px > 127 ∨ py < 0 ∨ py > 55) →
    ∃ t, exec (.drawText text px py) s = .next t ∧ t.fb = s.fb ∧ EndedWith 0x00000001#32 s t ∧ SameBesidesFb s t

/-! ### RENDER -/

/-- R201: a page operand outside `[0,7]`, also with an empty range, raises `PAGE_RANGE` before anything is emitted. -/
def Obligations.RenderChecksBothPages : Prop :=
  ∀ (p e : Int) (s : State), (p < 0 ∨ p > 7 ∨ e < 0 ∨ e > 7) →
    ∃ t, exec (.render p e) s = .next t ∧ t.fb = s.fb ∧ EndedWith 0x00000002#32 s t ∧ SameBesidesFb s t

/-- R202: both pages in `[0,7]` and `startPage > endPage`: nothing is emitted and the command completes OK. -/
def Obligations.RenderOfAnEmptyRangeCompletesOk : Prop :=
  ∀ (p e : Fin 8) (s : State), e < p →
    ∃ t, exec (.render p.val e.val) s = .next t ∧ t.fb = s.fb ∧ EndedWith 0x00000000#32 s t ∧ SameBesidesFb s t

/-- R200, R204, R207, R209: `RENDER` of a range that holds a page writes `CUR`, emits the triad of its first page and waits for
the answer; nothing else changes and no record is delivered yet. -/
def Obligations.RenderEmitsTheFirstTriad : Prop :=
  (∀ a0 a1 : BitVec 16, decode ⟨commandWord 0x30 false a0 a1 0 0 0 0, []⟩ = .ok (.render a0.toInt a1.toInt)) ∧
  ∀ (p e : Fin 8) (s : State), p ≤ e → exec (.render p.val e.val) s =
    .next { s with
      cur := BitVec.ofNat 24 (0x1000B0 + p.val)
      rs := .curWait p e
      transactions := s.transactions ++ [[BitVec.ofNat 8 (0xB0 + p.val), 0x00, 0x10]] }

/-- R205, R206, R209: in `CUR_WAIT(p)` the answer 3 makes the block build the data frame of page `p` from `FB`, the control
byte and then the page's byte of columns 0 to 127, emit it and wait; nothing else changes. -/
def Obligations.TriadTakenSendsTheDataFrame : Prop :=
  ∀ (p e : Fin 8) (s : State) (more : List SinkAnswer), s.resetIn = false → s.rs = .curWait p e →
    s.answers = .took 3 :: more → step s =
      .next { s with
        rs := .dataWait p e
        answers := more
        transactions := s.transactions ++ [0x40 :: (List.range 128).map fun x =>
          BitVec.ofNat 8 ((Frame.word s.fb x).toNat / 2 ^ (8 * p.val) % 256)] }

/-- R207, R209: in `DATA_WAIT(p)` the answer 129 makes the block write `CUR` and emit the triad of page `p+1` if the range goes
on, and complete OK if `p` is its last page. -/
def Obligations.DataFrameTakenGoesOnOrCompletes : Prop :=
  ∀ (p e : Fin 8) (s : State) (more : List SinkAnswer), s.resetIn = false → s.rs = .dataWait p e →
    s.answers = .took 129 :: more →
    (∀ q : Fin 8, q.val = p.val + 1 → p < e → step s =
      .next { s with
        cur := BitVec.ofNat 24 (0x1000B0 + q.val)
        rs := .curWait q e
        answers := more
        transactions := s.transactions ++ [[BitVec.ofNat 8 (0xB0 + q.val), 0x00, 0x10]] }) ∧
    (p = e → ∃ t, step s = .next t ∧ t.fb = s.fb ∧ EndedWith 0x00000000#32 s t ∧
      SameBesidesFb { s with answers := more } t)

/-- R208, R209: an answer inside the interface that is not the length requested ends `RENDER` at once with `SINK_ERROR`: the
record names the phase, the page, both counts and `FAIL`; nothing more is emitted; `FB` and `CUR` stay. -/
def Obligations.WrongAnswerEndsWithSinkError : Prop :=
  ∀ (p e : Fin 8) (phase : Bool) (s : State) (a : SinkAnswer) (more : List SinkAnswer), s.resetIn = false →
    s.rs = (if phase then .dataWait p e else .curWait p e) → s.answers = a :: more →
    LegalAnswer (if phase then 129 else 3) a → a ≠ .took (if phase then 129 else 3) →
    ∃ t, step s = .next t ∧ t.fb = s.fb ∧
      EndedWith (sinkErrorWord phase p (if phase then 129 else 3) a) s t ∧ SameBesidesFb { s with answers := more } t

/-- R209, R306: with no answer the block waits; nothing changes and no command is accepted. That waiting is any number of steps
to the same state is the model's choice (log 8). -/
def Obligations.RenderWaitsForASilentSink : Prop :=
  ∀ (p e : Fin 8) (s : State) (k : Nat), s.resetIn = false → (s.rs = .curWait p e ∨ s.rs = .dataWait p e) →
    s.answers = [] → stepN k s = .next s

/-- R207, R209, R211: a `RENDER` of `n` pages with a good sink emits, in order, the triad and the data frame of every page of the
range, `2*n` transactions and `132*n` bytes, and completes OK; `FB` is unchanged and `CUR` names the last page. -/
def Obligations.RenderWithAGoodSinkSendsEveryPage : Prop :=
  ∀ (p e : Fin 8) (s : State) (c : Command) (rest : List Command) (more : List SinkAnswer), p ≤ e →
    s.resetIn = false → s.rs = .idle → s.commands = c :: rest → decode c = .ok (.render p.val e.val) →
    s.answers = goodAnswers (e.val - p.val + 1) ++ more →
    (renderTransactions s.fb p e).length = 2 * (e.val - p.val + 1) ∧
    ((renderTransactions s.fb p e).map List.length).sum = 132 * (e.val - p.val + 1) ∧
    ∃ t, stepN (1 + 2 * (e.val - p.val + 1)) s = .next t ∧
      t.transactions = s.transactions ++ renderTransactions s.fb p e ∧ EndedWith 0x00000000#32 s t ∧
      t.answers = more ∧ t.commands = rest ∧ t.fb = s.fb ∧ t.font = s.font ∧
      t.cur = BitVec.ofNat 24 (0x1000B0 + e.val)

/-- R208, R209, R210: if transaction number `m` is the first with a wrong answer, `RENDER` emits exactly transactions 0 to `m`, uses
`m + 1` answers, and completes `SINK_ERROR` for transaction `m`. -/
def Obligations.RenderStopsAtTheFirstWrongAnswer : Prop :=
  ∀ (p e q : Fin 8) (s : State) (c : Command) (rest : List Command) (m : Nat) (a : SinkAnswer)
    (more : List SinkAnswer), p ≤ e → m < 2 * (e.val - p.val + 1) → q.val = p.val + m / 2 →
    s.resetIn = false → s.rs = .idle → s.commands = c :: rest → decode c = .ok (.render p.val e.val) →
    s.answers = (goodAnswers (e.val - p.val + 1)).take m ++ a :: more →
    LegalAnswer (if m % 2 = 1 then 129 else 3) a → a ≠ .took (if m % 2 = 1 then 129 else 3) →
    ∃ t, stepN (1 + (m + 1)) s = .next t ∧
      t.transactions = s.transactions ++ (renderTransactions s.fb p e).take (m + 1) ∧
      EndedWith (sinkErrorWord (m % 2 == 1) q (if m % 2 = 1 then 129 else 3) a) s t ∧
      t.answers = more ∧ t.commands = rest ∧ t.fb = s.fb ∧ t.font = s.font ∧
      t.cur = BitVec.ofNat 24 (0x1000B0 + q.val)

/-! ### Rules about the whole machine -/

/-- The invariant holds at reset (R34), for the values and empty ports the model chose there (logs 6, 13, 18). -/
def Obligations.InvariantHoldsAtReset : Prop := Inv State.reset

/-- Every step keeps the invariant: legal records and transactions (R29, R94, R95), the index as their count (R21), and a waiting
`RENDER` that fits the rest of the state (R30, R31, R64, R209). Two of its clauses are the model's, not the spec's: that no
state between two steps is in `EXEC` (log 7, DEDUCED; R31 gives a running drawing operation that run state, and R301 lets a
reset land in it), and that the record of a waiting `RENDER` is marked as owed (log 18). -/
def Obligations.EveryStepKeepsTheInvariant : Prop := ∀ s t : State, Inv s → step s = .next t → Inv t

/-- R26, R212: a step that changes `FB` takes a reset or runs a command that decodes to an instruction other than `RENDER`; a
waiting `RENDER`, a waiting block and an illegal command leave it, and so does the first step of `RENDER` itself (R64).
R27: no step changes `FONT`. -/
def Obligations.OnlyDrawingCommandsChangeTheFrameBuffer : Prop :=
  (∀ s t : State, step s = .next t → t.fb ≠ s.fb →
    s.resetIn = true ∨
    (s.resetIn = false ∧ ∃ c i, decode c = .ok i ∧ (∀ p e, i ≠ .render p e) ∧
      ((s.rs = .idle ∧ ∃ rest, s.commands = c :: rest) ∨ (s.rs = .exec ∧ s.latch = c)))) ∧
  (∀ (p e : Int) (s t : State), exec (.render p e) s = .next t → t.fb = s.fb) ∧
  (∀ (p e : Fin 8) (s t : State), s.resetIn = false → s.rs = .curWait p e ∨ s.rs = .dataWait p e →
    step s = .next t → t.fb = s.fb) ∧
  ∀ s t : State, step s = .next t → t.font = s.font

/-- R63, R81, R94: a step takes nothing back from the sink or the completion port; it adds at most one transaction or one
record, never both; the index advances exactly with the records. -/
def Obligations.PortsOnlyGrow : Prop :=
  ∀ s t : State, step s = .next t →
    (t.transactions = s.transactions ∧ t.completions = s.completions ∧ t.index = s.index) ∨
    (t.transactions = s.transactions ∧ ∃ r, t.completions = s.completions ++ [r] ∧ t.index = s.index + 1 ∧
      t.rs = .idle ∧ t.st = r) ∨
    (t.completions = s.completions ∧ t.index = s.index ∧ t.st = s.st ∧ ∃ b, t.transactions = s.transactions ++ [b] ∧
      ∃ p e, t.rs = .curWait p e ∨ t.rs = .dataWait p e)

/-- R22, R29, R30: no step reads `ST` or `CUR`: with other values in them, everything else comes out the same. -/
def Obligations.StatusAndCursorAreNeverRead : Prop :=
  ∀ (s t : State) (st' : BitVec 32) (cur' : BitVec 24), step s = .next t →
    ∃ t', step { s with st := st', cur := cur' } = .next t' ∧
      { t' with st := t.st, cur := t.cur } = t ∧ (t'.st = t.st ∨ (t'.st = st' ∧ t.st = s.st)) ∧
      (t'.cur = t.cur ∨ (t'.cur = cur' ∧ t.cur = s.cur))

/-- R96: the status port gives `ST` and `CUR` while the block is idle, the only time a read is allowed; after a command has
ended it gives the record just delivered (R94). That a read while a command runs gives no value is the model's choice
(log 16; U17 allows a refusal). -/
def Obligations.StatusPortReadsOnlyWhileIdle : Prop :=
  (∀ s : State, s.rs = .idle → readSt s = some s.st ∧ readCur s = some s.cur) ∧
  (∀ s : State, s.rs ≠ .idle → readSt s = none ∧ readCur s = none) ∧
  ∀ s t : State, step s = .next t → t.completions ≠ s.completions → readSt t = t.completions.getLast?

/-- R61, R92, R311: a list of commands without `RENDER` runs to its end, and with no more commands the run has ended; the Frame
Buffer left is the fold of what the single commands do, in list order, and nothing is emitted. That each command takes one
step is the model's reading (log 7). -/
def Obligations.CommandsFoldInOrder : Prop :=
  ∀ (cs rest : List Command) (s : State), s.resetIn = false → s.rs = .idle → s.commands = cs ++ rest →
    (∀ c ∈ cs, NotRender c) →
    ∃ t, stepN cs.length s = .next t ∧ t.rs = .idle ∧ t.commands = rest ∧ (rest = [] → cs ≠ [] → RunEnded t) ∧
      t.index = s.index + cs.length ∧ t.completions.length = s.completions.length + cs.length ∧
      t.transactions = s.transactions ∧ t.font = s.font ∧
      t.fb = cs.foldl (fun fb c => frameAfterCommand s.font c fb) s.fb

/-- R34, R35: after `CLEAR` nothing depends on what `FB`, `ST`, `CUR` and the latch held before: two runs that differ only in
these give the same Frame Buffer, the same records and the same transactions at every later step. That `CLEAR` is one of those
steps is the model's reading (log 7). -/
def Obligations.ClearMakesRunsIndependentOfThePast : Prop :=
  ∀ (s : State) (fb' : Frame) (st' : BitVec 32) (cur' : BitVec 24) (latch' : Command) (rest : List Command) (k : Nat),
    s.resetIn = false → s.rs = .idle → s.commands = ⟨0x00000000000000000000000000000001, []⟩ :: rest →
    ∃ t t', stepN (k + 1) s = .next t ∧
      stepN (k + 1) { s with fb := fb', st := st', cur := cur', latch := latch' } = .next t' ∧
      t'.fb = t.fb ∧ t'.st = t.st ∧ t'.rs = t.rs ∧ t'.completions = t.completions ∧ t'.transactions = t.transactions ∧
      t'.index = t.index

/-- R54, R126, R205, R207: after `REPLACEALL` of a payload, `RENDER 0, 7` with a good sink sends in the data frame of page `p`,
for column `x`, payload byte `8x + p`. The count of steps rests on the model's reading that a command accepted runs in the
step that accepts it (log 7). -/
def Obligations.ReplaceAllThenRenderSendsThePayload : Prop :=
  ∀ (pl : List Byte) (s : State) (rest : List Command) (more : List SinkAnswer), pl.length = 1024 →
    s.resetIn = false → s.rs = .idle →
    s.commands = ⟨0x00000000000000000000000000000004, pl⟩ :: ⟨0x00000000000000000000000700000030, []⟩ :: rest →
    s.answers = goodAnswers 8 ++ more →
    ∃ t, stepN 18 s = .next t ∧ t.rs = .idle ∧
      t.completions = s.completions ++ [0#32, 0#32] ∧
      t.transactions = s.transactions ++ (List.range 8).flatMap fun p =>
        [[BitVec.ofNat 8 (0xB0 + p), 0x00, 0x10], 0x40 :: (List.range 128).map fun x => pl.getD (8 * x + p) 0]

/-- R123: `SETPIXEL x, y, color` on the panel and then `RENDER` of page `y div 8`, its two transactions taken: bit `y mod 8` of the
byte of column `x` in the data frame is the colour; setting twice is setting once. The count of steps rests on log 7. -/
def Obligations.SetPixelIsSeenByRender : Prop :=
  ∀ (x y : Nat) (c : Colour) (s : State) (w r : Command) (rest : List Command) (more : List SinkAnswer),
    x < 128 → y < 64 → s.resetIn = false → s.rs = .idle → s.commands = w :: r :: rest →
    decode w = .ok (.setPixel x y c) → decode r = .ok (.render (y / 8 : Nat) (y / 8 : Nat)) →
    s.answers = .took 3 :: .took 129 :: more →
    (∃ t frame, stepN 4 s = .next t ∧ t.rs = .idle ∧
      t.transactions = s.transactions ++ [[BitVec.ofNat 8 (0xB0 + y / 8), 0x00, 0x10], frame] ∧
      frame.length = 129 ∧ frame[x + 1]?.map (fun b => b.getLsbD (y % 8)) = some c) ∧
    ∀ u t t' : State, exec (.setPixel x y c) u = .next t → exec (.setPixel x y c) t = .next t' → t'.fb = t.fb

/-- R311, R301: a run that has not ended ends only in a step that delivers a record, with no command left to offer; a reset that
ends the last command's `RENDER` does not end the run; a run with a waiting `RENDER` has not ended and has no final state;
a run that has ended stays ended, and its final state is `FB`, `ST`, `CUR` and what the two output ports gave. The mark of the
record owed is the model's (log 18). -/
def Obligations.RunEndsOnlyWithTheLastRecord : Prop :=
  (∀ s t : State, Inv s → step s = .next t → ¬ RunEnded s → RunEnded t →
    t.completions = s.completions ++ [t.st] ∧ t.commands = []) ∧
  (∀ (p e : Fin 8) (s t : State), Inv s → s.rs = .curWait p e ∨ s.rs = .dataWait p e →
    finalState s = none ∧ (s.resetIn = true → step s = .next t → ¬ RunEnded t ∧ finalState t = none)) ∧
  (∀ s t : State, RunEnded s → step s = .next t → RunEnded t) ∧
  ∀ s : State, RunEnded s → finalState s = some
    { fb := s.fb, st := s.st, cur := s.cur, transactions := s.transactions, completions := s.completions }
end

