-- ==== Sys2Proof/Laws/Decode.lean ====
section
/-! SUPPORT. The laws of the encoding: a word is its fields, a row of the opcode map spells a word by its opcode and its
zero fields, the fields of a word built from fields, signed slots. -/

namespace Sys2Proof

/-- Two joined bit vectors are equal exactly when their parts are. -/
theorem append_eq_append_iff {n m : Nat} {x x' : BitVec n} {y y' : BitVec m} :
    x ++ y = x' ++ y' ↔ x = x' ∧ y = y' := by
  constructor
  · intro h
    have h1 := congrArg (BitVec.extractLsb' m n) h
    have h2 := congrArg (BitVec.extractLsb' 0 m) h
    rw [BitVec.extractLsb'_append_eq_left, BitVec.extractLsb'_append_eq_left] at h1
    rw [BitVec.extractLsb'_append_eq_right, BitVec.extractLsb'_append_eq_right] at h2
    exact ⟨h1, h2⟩
  · rintro ⟨rfl, rfl⟩; rfl

/-- `RSV`, bits 15:9 (R82). -/
def reservedField (cw : CommandWord) : BitVec 7 := cw.extractLsb' 9 7

/-- A command word is its ten fields, in the order of R82. -/
theorem word_eq_fields (cw : CommandWord) :
    cw = slot 6 cw ++ slot 5 cw ++ slot 4 cw ++ slot 3 cw ++ slot 2 cw ++ slot 1 cw ++ slot 0 cw ++
      reservedField cw ++ BitVec.ofBool (colourField cw) ++ opcodeField cw := by
  have hc : BitVec.ofBool (colourField cw) = cw.extractLsb' 8 1 := by
    apply BitVec.eq_of_getLsbD_eq
    intro i hi
    obtain rfl : i = 0 := by omega
    simp [colourField]
  rw [hc]
  unfold slot reservedField opcodeField
  rw [BitVec.extractLsb'_append_extractLsb'_eq_extractLsb' (by rfl),
    BitVec.extractLsb'_append_extractLsb'_eq_extractLsb' (by rfl),
    BitVec.extractLsb'_append_extractLsb'_eq_extractLsb' (by rfl),
    BitVec.extractLsb'_append_extractLsb'_eq_extractLsb' (by rfl),
    BitVec.extractLsb'_append_extractLsb'_eq_extractLsb' (by rfl),
    BitVec.extractLsb'_append_extractLsb'_eq_extractLsb' (by rfl),
    BitVec.extractLsb'_append_extractLsb'_eq_extractLsb' (by rfl),
    BitVec.extractLsb'_append_extractLsb'_eq_extractLsb' (by rfl),
    BitVec.extractLsb'_append_extractLsb'_eq_extractLsb' (by rfl)]
  simp

/-- A word given by its fields, masked field by field, is a match word exactly when its opcode is the match's and every masked
field is zero (R85, R87). -/
theorem fields_masked_iff (a6 a5 a4 a3 a2 a1 a0 m6 m5 m4 m3 m2 m1 m0 : BitVec 16) (r : BitVec 7) (c mc : BitVec 1)
    (opc o : BitVec 8) :
    (a6 ++ a5 ++ a4 ++ a3 ++ a2 ++ a1 ++ a0 ++ r ++ c ++ opc) &&&
      (m6 ++ m5 ++ m4 ++ m3 ++ m2 ++ m1 ++ m0 ++ 0x7F#7 ++ mc ++ 0xFF#8) =
      0#16 ++ 0#16 ++ 0#16 ++ 0#16 ++ 0#16 ++ 0#16 ++ 0#16 ++ 0#7 ++ 0#1 ++ o ↔
    opc = o ∧ c &&& mc = 0#1 ∧ r = 0#7 ∧ a0 &&& m0 = 0#16 ∧ a1 &&& m1 = 0#16 ∧ a2 &&& m2 = 0#16 ∧
      a3 &&& m3 = 0#16 ∧ a4 &&& m4 = 0#16 ∧ a5 &&& m5 = 0#16 ∧ a6 &&& m6 = 0#16 := by
  have h8 : opc &&& 0xFF#8 = opc := BitVec.and_allOnes (x := opc)
  have h7 : r &&& 0x7F#7 = r := BitVec.and_allOnes (x := r)
  simp only [BitVec.and_append, append_eq_append_iff, h8, h7]
  tauto

/-- The same of any command word. -/
theorem masked_iff (cw : CommandWord) (m6 m5 m4 m3 m2 m1 m0 : BitVec 16) (mc : BitVec 1) (o : Byte) :
    cw &&& (m6 ++ m5 ++ m4 ++ m3 ++ m2 ++ m1 ++ m0 ++ 0x7F#7 ++ mc ++ 0xFF#8 : BitVec 128) =
      (0#16 ++ 0#16 ++ 0#16 ++ 0#16 ++ 0#16 ++ 0#16 ++ 0#16 ++ 0#7 ++ 0#1 ++ o : BitVec 128) ↔
    opcodeField cw = o ∧ BitVec.ofBool (colourField cw) &&& mc = 0#1 ∧ reservedField cw = 0#7 ∧
      slot 0 cw &&& m0 = 0#16 ∧ slot 1 cw &&& m1 = 0#16 ∧ slot 2 cw &&& m2 = 0#16 ∧ slot 3 cw &&& m3 = 0#16 ∧
      slot 4 cw &&& m4 = 0#16 ∧ slot 5 cw &&& m5 = 0#16 ∧ slot 6 cw &&& m6 = 0#16 := by
  conv => lhs; rw [word_eq_fields cw]
  exact fields_masked_iff ..

/-- What the opcode map asks of a word for each operation: its opcode, and the fields that must be zero (R85, R86). -/
def rowFields (op : Operation) (cw : CommandWord) : Prop :=
  match op with
  | .clear => 
      opcodeField cw = 0x01#8 ∧ colourField cw = false ∧ reservedField cw = 0#7 ∧ slot 0 cw = 0#16 ∧
      slot 1 cw = 0#16 ∧ slot 2 cw = 0#16 ∧ slot 3 cw = 0#16 ∧ slot 4 cw = 0#16 ∧ slot 5 cw = 0#16 ∧
      slot 6 cw = 0#16
  | .setPixel => 
      opcodeField cw = 0x02#8 ∧ reservedField cw = 0#7 ∧ slot 2 cw = 0#16 ∧ slot 3 cw = 0#16 ∧ slot 4 cw = 0#16 ∧
      slot 5 cw = 0#16 ∧ slot 6 cw = 0#16
  | .blit => 
      opcodeField cw = 0x03#8 ∧ colourField cw = false ∧ reservedField cw = 0#7 ∧ slot 3 cw = 0#16 ∧
      slot 4 cw = 0#16 ∧ slot 5 cw = 0#16 ∧ slot 6 cw = 0#16
  | .replaceAll => 
      opcodeField cw = 0x04#8 ∧ colourField cw = false ∧ reservedField cw = 0#7 ∧ slot 0 cw = 0#16 ∧
      slot 1 cw = 0#16 ∧ slot 2 cw = 0#16 ∧ slot 3 cw = 0#16 ∧ slot 4 cw = 0#16 ∧ slot 5 cw = 0#16 ∧
      slot 6 cw = 0#16
  | .drawLine => 
      opcodeField cw = 0x10#8 ∧ reservedField cw = 0#7 ∧ slot 5 cw = 0#16 ∧ slot 6 cw = 0#16
  | .hline => 
      opcodeField cw = 0x11#8 ∧ reservedField cw = 0#7 ∧ slot 3 cw = 0#16 ∧ slot 4 cw = 0#16 ∧ slot 5 cw = 0#16 ∧
      slot 6 cw = 0#16
  | .vline => 
      opcodeField cw = 0x12#8 ∧ reservedField cw = 0#7 ∧ slot 3 cw = 0#16 ∧ slot 4 cw = 0#16 ∧ slot 5 cw = 0#16 ∧
      slot 6 cw = 0#16
  | .drawRect => 
      opcodeField cw = 0x13#8 ∧ reservedField cw = 0#7 ∧ slot 4 cw = 0#16 ∧ slot 5 cw = 0#16 ∧ slot 6 cw = 0#16
  | .fillRect => 
      opcodeField cw = 0x14#8 ∧ reservedField cw = 0#7 ∧ slot 4 cw = 0#16 ∧ slot 5 cw = 0#16 ∧ slot 6 cw = 0#16
  | .drawTri => 
      opcodeField cw = 0x15#8 ∧ reservedField cw = 0#7 ∧ slot 6 cw = 0#16
  | .drawEqTri => 
      opcodeField cw = 0x16#8 ∧ reservedField cw = 0#7 ∧ slot 4 cw = 0#16 ∧ slot 5 cw = 0#16 ∧ slot 6 cw = 0#16
  | .drawCircle => 
      opcodeField cw = 0x17#8 ∧ reservedField cw = 0#7 ∧ slot 3 cw = 0#16 ∧ slot 4 cw = 0#16 ∧ slot 5 cw = 0#16 ∧
      slot 6 cw = 0#16
  | .fillCircle => 
      opcodeField cw = 0x18#8 ∧ reservedField cw = 0#7 ∧ slot 3 cw = 0#16 ∧ slot 4 cw = 0#16 ∧ slot 5 cw = 0#16 ∧
      slot 6 cw = 0#16
  | .drawChar => 
      opcodeField cw = 0x20#8 ∧ colourField cw = false ∧ reservedField cw = 0#7 ∧
      slot 0 cw &&& 0xFF00#16 = 0#16 ∧ slot 3 cw = 0#16 ∧ slot 4 cw = 0#16 ∧ slot 5 cw = 0#16 ∧ slot 6 cw = 0#16
  | .drawText => 
      opcodeField cw = 0x21#8 ∧ colourField cw = false ∧ reservedField cw = 0#7 ∧
      slot 2 cw &&& 0xFF00#16 = 0#16 ∧ slot 3 cw = 0#16 ∧ slot 4 cw = 0#16 ∧ slot 5 cw = 0#16 ∧ slot 6 cw = 0#16
  | .render => 
      opcodeField cw = 0x30#8 ∧ colourField cw = false ∧ reservedField cw = 0#7 ∧ slot 2 cw = 0#16 ∧
      slot 3 cw = 0#16 ∧ slot 4 cw = 0#16 ∧ slot 5 cw = 0#16 ∧ slot 6 cw = 0#16

/-- A colour bit masked by 1. -/
theorem ofBool_and_one (c : Bool) : BitVec.ofBool c &&& 1#1 = 0#1 ↔ c = false := by cases c <;> decide

/-- The row of `clear` (R87). -/
theorem spelledBy_clear (cw : CommandWord) :
    OpcodeRow.spelledBy ⟨.clear, 0x00000000000000000000000000000001, 0xFFFFFFFFFFFFFFFFFFFFFFFFFFFFFFFF⟩
      cw = true ↔ rowFields .clear cw := by
  have h := masked_iff cw 0xFFFF 0xFFFF 0xFFFF 0xFFFF 0xFFFF 0xFFFF 0xFFFF 1 0x01
  have h16 : ∀ b : BitVec 16, b &&& 0xFFFF#16 = b := fun b => BitVec.and_allOnes (x := b)
  simp [h16] at h
  simp [OpcodeRow.spelledBy, rowFields, h, ofBool_and_one]

/-- The row of `setPixel` (R87). -/
theorem spelledBy_setPixel (cw : CommandWord) :
    OpcodeRow.spelledBy ⟨.setPixel, 0x00000000000000000000000000000002, 0xFFFFFFFFFFFFFFFFFFFF00000000FEFF⟩
      cw = true ↔ rowFields .setPixel cw := by
  have h := masked_iff cw 0xFFFF 0xFFFF 0xFFFF 0xFFFF 0xFFFF 0x0000 0x0000 0 0x02
  have h16 : ∀ b : BitVec 16, b &&& 0xFFFF#16 = b := fun b => BitVec.and_allOnes (x := b)
  simp [h16] at h
  simp [OpcodeRow.spelledBy, rowFields, h]

/-- The row of `blit` (R87). -/
theorem spelledBy_blit (cw : CommandWord) :
    OpcodeRow.spelledBy ⟨.blit, 0x00000000000000000000000000000003, 0xFFFFFFFFFFFFFFFF000000000000FFFF⟩
      cw = true ↔ rowFields .blit cw := by
  have h := masked_iff cw 0xFFFF 0xFFFF 0xFFFF 0xFFFF 0x0000 0x0000 0x0000 1 0x03
  have h16 : ∀ b : BitVec 16, b &&& 0xFFFF#16 = b := fun b => BitVec.and_allOnes (x := b)
  simp [h16] at h
  simp [OpcodeRow.spelledBy, rowFields, h, ofBool_and_one]

/-- The row of `replaceAll` (R87). -/
theorem spelledBy_replaceAll (cw : CommandWord) :
    OpcodeRow.spelledBy ⟨.replaceAll, 0x00000000000000000000000000000004, 0xFFFFFFFFFFFFFFFFFFFFFFFFFFFFFFFF⟩
      cw = true ↔ rowFields .replaceAll cw := by
  have h := masked_iff cw 0xFFFF 0xFFFF 0xFFFF 0xFFFF 0xFFFF 0xFFFF 0xFFFF 1 0x04
  have h16 : ∀ b : BitVec 16, b &&& 0xFFFF#16 = b := fun b => BitVec.and_allOnes (x := b)
  simp [h16] at h
  simp [OpcodeRow.spelledBy, rowFields, h, ofBool_and_one]

/-- The row of `drawLine` (R87). -/
theorem spelledBy_drawLine (cw : CommandWord) :
    OpcodeRow.spelledBy ⟨.drawLine, 0x00000000000000000000000000000010, 0xFFFFFFFF00000000000000000000FEFF⟩
      cw = true ↔ rowFields .drawLine cw := by
  have h := masked_iff cw 0xFFFF 0xFFFF 0x0000 0x0000 0x0000 0x0000 0x0000 0 0x10
  have h16 : ∀ b : BitVec 16, b &&& 0xFFFF#16 = b := fun b => BitVec.and_allOnes (x := b)
  simp [h16] at h
  simp [OpcodeRow.spelledBy, rowFields, h]

/-- The row of `hline` (R87). -/
theorem spelledBy_hline (cw : CommandWord) :
    OpcodeRow.spelledBy ⟨.hline, 0x00000000000000000000000000000011, 0xFFFFFFFFFFFFFFFF000000000000FEFF⟩
      cw = true ↔ rowFields .hline cw := by
  have h := masked_iff cw 0xFFFF 0xFFFF 0xFFFF 0xFFFF 0x0000 0x0000 0x0000 0 0x11
  have h16 : ∀ b : BitVec 16, b &&& 0xFFFF#16 = b := fun b => BitVec.and_allOnes (x := b)
  simp [h16] at h
  simp [OpcodeRow.spelledBy, rowFields, h]

/-- The row of `vline` (R87). -/
theorem spelledBy_vline (cw : CommandWord) :
    OpcodeRow.spelledBy ⟨.vline, 0x00000000000000000000000000000012, 0xFFFFFFFFFFFFFFFF000000000000FEFF⟩
      cw = true ↔ rowFields .vline cw := by
  have h := masked_iff cw 0xFFFF 0xFFFF 0xFFFF 0xFFFF 0x0000 0x0000 0x0000 0 0x12
  have h16 : ∀ b : BitVec 16, b &&& 0xFFFF#16 = b := fun b => BitVec.and_allOnes (x := b)
  simp [h16] at h
  simp [OpcodeRow.spelledBy, rowFields, h]

/-- The row of `drawRect` (R87). -/
theorem spelledBy_drawRect (cw : CommandWord) :
    OpcodeRow.spelledBy ⟨.drawRect, 0x00000000000000000000000000000013, 0xFFFFFFFFFFFF0000000000000000FEFF⟩
      cw = true ↔ rowFields .drawRect cw := by
  have h := masked_iff cw 0xFFFF 0xFFFF 0xFFFF 0x0000 0x0000 0x0000 0x0000 0 0x13
  have h16 : ∀ b : BitVec 16, b &&& 0xFFFF#16 = b := fun b => BitVec.and_allOnes (x := b)
  simp [h16] at h
  simp [OpcodeRow.spelledBy, rowFields, h]

/-- The row of `fillRect` (R87). -/
theorem spelledBy_fillRect (cw : CommandWord) :
    OpcodeRow.spelledBy ⟨.fillRect, 0x00000000000000000000000000000014, 0xFFFFFFFFFFFF0000000000000000FEFF⟩
      cw = true ↔ rowFields .fillRect cw := by
  have h := masked_iff cw 0xFFFF 0xFFFF 0xFFFF 0x0000 0x0000 0x0000 0x0000 0 0x14
  have h16 : ∀ b : BitVec 16, b &&& 0xFFFF#16 = b := fun b => BitVec.and_allOnes (x := b)
  simp [h16] at h
  simp [OpcodeRow.spelledBy, rowFields, h]

/-- The row of `drawTri` (R87). -/
theorem spelledBy_drawTri (cw : CommandWord) :
    OpcodeRow.spelledBy ⟨.drawTri, 0x00000000000000000000000000000015, 0xFFFF000000000000000000000000FEFF⟩
      cw = true ↔ rowFields .drawTri cw := by
  have h := masked_iff cw 0xFFFF 0x0000 0x0000 0x0000 0x0000 0x0000 0x0000 0 0x15
  have h16 : ∀ b : BitVec 16, b &&& 0xFFFF#16 = b := fun b => BitVec.and_allOnes (x := b)
  simp [h16] at h
  simp [OpcodeRow.spelledBy, rowFields, h]

/-- The row of `drawEqTri` (R87). -/
theorem spelledBy_drawEqTri (cw : CommandWord) :
    OpcodeRow.spelledBy ⟨.drawEqTri, 0x00000000000000000000000000000016, 0xFFFFFFFFFFFF0000000000000000FEFF⟩
      cw = true ↔ rowFields .drawEqTri cw := by
  have h := masked_iff cw 0xFFFF 0xFFFF 0xFFFF 0x0000 0x0000 0x0000 0x0000 0 0x16
  have h16 : ∀ b : BitVec 16, b &&& 0xFFFF#16 = b := fun b => BitVec.and_allOnes (x := b)
  simp [h16] at h
  simp [OpcodeRow.spelledBy, rowFields, h]

/-- The row of `drawCircle` (R87). -/
theorem spelledBy_drawCircle (cw : CommandWord) :
    OpcodeRow.spelledBy ⟨.drawCircle, 0x00000000000000000000000000000017, 0xFFFFFFFFFFFFFFFF000000000000FEFF⟩
      cw = true ↔ rowFields .drawCircle cw := by
  have h := masked_iff cw 0xFFFF 0xFFFF 0xFFFF 0xFFFF 0x0000 0x0000 0x0000 0 0x17
  have h16 : ∀ b : BitVec 16, b &&& 0xFFFF#16 = b := fun b => BitVec.and_allOnes (x := b)
  simp [h16] at h
  simp [OpcodeRow.spelledBy, rowFields, h]

/-- The row of `fillCircle` (R87). -/
theorem spelledBy_fillCircle (cw : CommandWord) :
    OpcodeRow.spelledBy ⟨.fillCircle, 0x00000000000000000000000000000018, 0xFFFFFFFFFFFFFFFF000000000000FEFF⟩
      cw = true ↔ rowFields .fillCircle cw := by
  have h := masked_iff cw 0xFFFF 0xFFFF 0xFFFF 0xFFFF 0x0000 0x0000 0x0000 0 0x18
  have h16 : ∀ b : BitVec 16, b &&& 0xFFFF#16 = b := fun b => BitVec.and_allOnes (x := b)
  simp [h16] at h
  simp [OpcodeRow.spelledBy, rowFields, h]

/-- The row of `drawChar` (R87). -/
theorem spelledBy_drawChar (cw : CommandWord) :
    OpcodeRow.spelledBy ⟨.drawChar, 0x00000000000000000000000000000020, 0xFFFFFFFFFFFFFFFF00000000FF00FFFF⟩
      cw = true ↔ rowFields .drawChar cw := by
  have h := masked_iff cw 0xFFFF 0xFFFF 0xFFFF 0xFFFF 0x0000 0x0000 0xFF00 1 0x20
  have h16 : ∀ b : BitVec 16, b &&& 0xFFFF#16 = b := fun b => BitVec.and_allOnes (x := b)
  simp [h16] at h
  simp [OpcodeRow.spelledBy, rowFields, h, ofBool_and_one]

/-- The row of `drawText` (R87). -/
theorem spelledBy_drawText (cw : CommandWord) :
    OpcodeRow.spelledBy ⟨.drawText, 0x00000000000000000000000000000021, 0xFFFFFFFFFFFFFFFFFF0000000000FFFF⟩
      cw = true ↔ rowFields .drawText cw := by
  have h := masked_iff cw 0xFFFF 0xFFFF 0xFFFF 0xFFFF 0xFF00 0x0000 0x0000 1 0x21
  have h16 : ∀ b : BitVec 16, b &&& 0xFFFF#16 = b := fun b => BitVec.and_allOnes (x := b)
  simp [h16] at h
  simp [OpcodeRow.spelledBy, rowFields, h, ofBool_and_one]

/-- The row of `render` (R87). -/
theorem spelledBy_render (cw : CommandWord) :
    OpcodeRow.spelledBy ⟨.render, 0x00000000000000000000000000000030, 0xFFFFFFFFFFFFFFFFFFFF00000000FFFF⟩
      cw = true ↔ rowFields .render cw := by
  have h := masked_iff cw 0xFFFF 0xFFFF 0xFFFF 0xFFFF 0xFFFF 0x0000 0x0000 1 0x30
  have h16 : ∀ b : BitVec 16, b &&& 0xFFFF#16 = b := fun b => BitVec.and_allOnes (x := b)
  simp [h16] at h
  simp [OpcodeRow.spelledBy, rowFields, h, ofBool_and_one]

/-- Each row of the opcode map asks for its operation's fields (R87). -/
theorem spelledBy_of_mem {r : OpcodeRow} (hr : r ∈ opcodeMap) (cw : CommandWord) :
    r.spelledBy cw = true ↔ rowFields r.op cw := by
  simp only [opcodeMap, List.mem_cons, List.not_mem_nil, or_false] at hr
  rcases hr with rfl | rfl | rfl | rfl | rfl | rfl | rfl | rfl | rfl | rfl | rfl | rfl | rfl | rfl | rfl | rfl
  · exact spelledBy_clear cw
  · exact spelledBy_setPixel cw
  · exact spelledBy_blit cw
  · exact spelledBy_replaceAll cw
  · exact spelledBy_drawLine cw
  · exact spelledBy_hline cw
  · exact spelledBy_vline cw
  · exact spelledBy_drawRect cw
  · exact spelledBy_fillRect cw
  · exact spelledBy_drawTri cw
  · exact spelledBy_drawEqTri cw
  · exact spelledBy_drawCircle cw
  · exact spelledBy_fillCircle cw
  · exact spelledBy_drawChar cw
  · exact spelledBy_drawText cw
  · exact spelledBy_render cw

/-- The opcode of an operation (R86). -/
def Operation.opcode : Operation → Byte
  | .clear => 0x01
  | .setPixel => 0x02
  | .blit => 0x03
  | .replaceAll => 0x04
  | .drawLine => 0x10
  | .hline => 0x11
  | .vline => 0x12
  | .drawRect => 0x13
  | .fillRect => 0x14
  | .drawTri => 0x15
  | .drawEqTri => 0x16
  | .drawCircle => 0x17
  | .fillCircle => 0x18
  | .drawChar => 0x20
  | .drawText => 0x21
  | .render => 0x30

theorem opcodeField_of_rowFields {op : Operation} {cw : CommandWord} (h : rowFields op cw) :
    opcodeField cw = op.opcode := by
  cases op <;> simp only [rowFields] at h <;> exact h.1

theorem Operation.opcode_inj {a b : Operation} (h : a.opcode = b.opcode) : a = b := by
  revert h; cases a <;> cases b <;> decide

/-- Every operation has a row. -/
theorem exists_row (op : Operation) : ∃ r ∈ opcodeMap, r.op = op := by
  cases op <;> simp [opcodeMap]

/-- The operation a word spells is the one whose fields it has (R87, R92). -/
theorem operationOf_iff {op : Operation} {cw : CommandWord} : operationOf cw = some op ↔ rowFields op cw := by
  unfold operationOf
  constructor
  · intro h
    obtain ⟨r, hr, rfl⟩ := Option.map_eq_some_iff.mp h
    exact (spelledBy_of_mem (List.mem_of_find?_eq_some hr) cw).mp (by simpa using List.find?_some hr)
  · intro h
    obtain ⟨r, hr, rfl⟩ := exists_row op
    have hs := (spelledBy_of_mem hr cw).mpr h
    cases hf : opcodeMap.find? fun r => r.spelledBy cw with
    | none => exact absurd hs (by simpa using List.find?_eq_none.mp hf r hr)
    | some r' =>
      have h' := (spelledBy_of_mem (List.mem_of_find?_eq_some hf) cw).mp (by simpa using List.find?_some hf)
      have : r'.op = r.op := Operation.opcode_inj
        ((opcodeField_of_rowFields h').symm.trans (opcodeField_of_rowFields h))
      simp [this]

/-- What decodes (R92): the word has an operation's fields, the payload the length it asks for. -/
theorem decode_eq_ok_iff {c : Command} {i : Instr} : decode c = .ok i ↔
    ∃ op, rowFields op c.cw ∧ c.pl.length = requiredLength op c.cw ∧ assemble op c = i := by
  unfold decode
  simp only [← operationOf_iff]
  cases operationOf c.cw with
  | none => simp
  | some op =>
    simp only [Option.some.injEq]
    split
    · rename_i h; simp [h]
    · rename_i h; simp [h]

/-- A word with an operation's fields decodes to that operation if its payload has the length required (R92). -/
theorem decode_of_rowFields {op : Operation} {c : Command} (h : rowFields op c.cw) : decode c =
    if c.pl.length = requiredLength op c.cw then .ok (assemble op c) else .error .payloadLength := by
  simp [decode, operationOf_iff.mpr h]

/-- A word with no operation's fields is no command (R92, R93). -/
theorem decode_of_no_rowFields {c : Command} (h : ∀ op, ¬ rowFields op c.cw) : decode c = .error .noRow := by
  have : operationOf c.cw = none := by
    cases ho : operationOf c.cw with
    | none => rfl
    | some op => exact absurd (operationOf_iff.mp ho) (h op)
  simp [decode, this]

/-- The fields of a command word built from fields (R82). -/
theorem fields_commandWord (opc : Byte) (c : Colour) (a0 a1 a2 a3 a4 a5 : BitVec 16) :
    opcodeField (commandWord opc c a0 a1 a2 a3 a4 a5) = opc ∧
    colourField (commandWord opc c a0 a1 a2 a3 a4 a5) = c ∧
    reservedField (commandWord opc c a0 a1 a2 a3 a4 a5) = 0 ∧
    slot 0 (commandWord opc c a0 a1 a2 a3 a4 a5) = a0 ∧ slot 1 (commandWord opc c a0 a1 a2 a3 a4 a5) = a1 ∧
    slot 2 (commandWord opc c a0 a1 a2 a3 a4 a5) = a2 ∧ slot 3 (commandWord opc c a0 a1 a2 a3 a4 a5) = a3 ∧
    slot 4 (commandWord opc c a0 a1 a2 a3 a4 a5) = a4 ∧ slot 5 (commandWord opc c a0 a1 a2 a3 a4 a5) = a5 ∧
    slot 6 (commandWord opc c a0 a1 a2 a3 a4 a5) = 0 := by
  have h := word_eq_fields (commandWord opc c a0 a1 a2 a3 a4 a5)
  conv at h => lhs; unfold commandWord
  obtain ⟨h, ho⟩ := append_eq_append_iff.mp h
  simp only [append_eq_append_iff] at h
  obtain ⟨⟨⟨⟨⟨⟨⟨⟨h6, h5⟩, h4⟩, h3⟩, h2⟩, h1⟩, h0⟩, hr⟩, hc⟩ := h
  have hc' : c = colourField (commandWord opc c a0 a1 a2 a3 a4 a5) := by
    revert hc; generalize colourField _ = d; cases c <;> cases d <;> decide
  exact ⟨ho.symm, hc'.symm, hr.symm, h0.symm, h1.symm, h2.symm, h3.symm, h4.symm, h5.symm, h6.symm⟩

/-- A word whose must-be-zero fields are zero is built from its other fields (R82, R85). -/
theorem commandWord_fields {cw : CommandWord} (hr : reservedField cw = 0) (h6 : slot 6 cw = 0) :
    commandWord (opcodeField cw) (colourField cw) (slot 0 cw) (slot 1 cw) (slot 2 cw) (slot 3 cw) (slot 4 cw)
      (slot 5 cw) = cw := by
  conv => rhs; rw [word_eq_fields cw, hr, h6]
  rfl

/-- A signed slot holds every value it can (R83). -/
theorem toInt_slotOf {v : Int} (h : fitsSlot v = true) : (slotOf v).toInt = v := by
  simp only [fitsSlot, Bool.and_eq_true, decide_eq_true_eq] at h
  simp only [slotOf, BitVec.toInt_ofInt]
  exact Int.bmod_eq_of_le (by omega) (by omega)

theorem slotOf_toInt (b : BitVec 16) : slotOf b.toInt = b := by simp [slotOf]

theorem fitsSlot_toInt (b : BitVec 16) : fitsSlot b.toInt = true := by
  have h1 := b.le_toInt
  have h2 := b.toInt_lt
  simp only [fitsSlot, Bool.and_eq_true, decide_eq_true_eq]
  omega

end Sys2Proof
end

