-- ==== Sys2Proof/Laws/Frame.lean ====
section
/-! SUPPORT. The laws of the Frame Buffer: reading a word or a pixel after a write, what a sequence of `plot` calls
does to every pixel, and that a Frame Buffer is determined by its pixels. -/

namespace Sys2Proof.Machine

@[simp] theorem word_frameOf (f : Nat → Word) (x : Nat) :
    Frame.word (frameOf f) x = if x < 128 then f x else 0 := by
  unfold Frame.word frameOf
  split <;> simp

@[simp] theorem word_setWord (fb : Frame) (i : Nat) (w : Word) (x : Nat) :
    Frame.word (Frame.setWord fb i w) x = if i = x ∧ x < 128 then w else Frame.word fb x := by
  unfold Frame.word Frame.setWord
  by_cases hx : x < 128 <;> by_cases hi : i < 128 <;> simp [hx, hi, Vector.getElem_set]
  omega

theorem fontByte_fontOf (f : Nat → Byte) (c : Byte) (i : Nat) (hi : i < 8) :
    fontByte (fontOf f) c i = f (8 * c.toNat + i) := by
  have hc : 8 * c.toNat + i < 2048 := by have := c.isLt; omega
  simp [fontByte, fontOf, hc]

/-- Two Frame Buffers with the same words are the same data. -/
theorem frame_eq_of_words {fb fb' : Frame} (h : ∀ x, x < 128 → Frame.word fb x = Frame.word fb' x) :
    fb = fb' := by
  apply Vector.ext
  intro i hi
  simpa [Frame.word, hi] using h i hi

/-- Two Frame Buffers with the same pixels are the same data. -/
theorem frame_eq_of_pixels {fb fb' : Frame}
    (h : ∀ x y, x < 128 → y < 64 → Frame.pixel fb x y = Frame.pixel fb' x y) : fb = fb' :=
  frame_eq_of_words fun x hx => BitVec.eq_of_getLsbD_eq fun y hy => h x y hx hy

@[simp] theorem pixel_frameOf (f : Nat → Word) (x y : Nat) (hx : x < 128) :
    Frame.pixel (frameOf f) x y = (f x).getLsbD y := by
  simp [Frame.pixel, hx]

theorem getLsbD_setBit (w : Word) (y v : Nat) (c : Colour) (hv : v < 64) :
    (setBit w y c).getLsbD v = if y = v then c else w.getLsbD v := by
  unfold setBit
  cases c <;> by_cases h : y = v
  · subst h; simp [hv]
  · simp [h, hv]; omega
  · subst h; simp [hv]
  · simp [h, hv]; omega

/-- What `plot` does to every pixel: it gives its colour to the one it names and leaves the others (R121). -/
theorem pixel_plot (px py : Int) (c : Colour) (fb : Frame) (x y : Nat) (hx : x < 128) (hy : y < 64) :
    Frame.pixel (plot px py c fb) x y = if px = x ∧ py = y then c else Frame.pixel fb x y := by
  unfold plot
  split
  · have : ¬ (px = x ∧ py = y) := by omega
    simp [this]
  · unfold Frame.pixel
    rw [word_setWord]
    by_cases h : px.toNat = x ∧ x < 128
    · rw [if_pos h, getLsbD_setBit _ _ _ _ hy]
      by_cases hyy : py.toNat = y
      · have : px = x ∧ py = y := by omega
        simp [this]
      · have : ¬ (px = x ∧ py = y) := by omega
        rw [if_neg hyy, if_neg this, h.1]
    · rw [if_neg h]
      have : ¬ (px = x ∧ py = y) := by omega
      rw [if_neg this]

/-- What a sequence of `plot` calls of one colour does to every pixel: those plotted have the colour, the others
are as before, whatever the order of the calls (R119, R140). -/
theorem pixel_plotAll (c : Colour) (pixels : List Pixel) (fb : Frame) (x y : Nat) (hx : x < 128)
    (hy : y < 64) : Frame.pixel (plotAll c pixels fb) x y =
      if ((x : Int), (y : Int)) ∈ pixels then c else Frame.pixel fb x y := by
  unfold plotAll
  induction pixels generalizing fb with
  | nil => simp
  | cons p ps ih =>
    rw [List.foldl_cons, ih, pixel_plot _ _ _ _ _ _ hx hy]
    obtain ⟨px, py⟩ := p
    by_cases hm : ((x : Int), (y : Int)) ∈ ps
    · simp [hm]
    · by_cases he : px = x ∧ py = y
      · simp [he]
      · have : ¬ ((x : Int), (y : Int)) = (px, py) := by
          intro hc; exact he ⟨(Prod.mk.inj hc).1.symm, (Prod.mk.inj hc).2.symm⟩
        simp [hm, he, this]

/-- Sequences of `plot` calls that name the same positions of the panel have the same effect. -/
theorem plotAll_eq_of_mem (c : Colour) {ps qs : List Pixel} (fb : Frame)
    (h : ∀ x y : Nat, x < 128 → y < 64 → (((x : Int), (y : Int)) ∈ ps ↔ ((x : Int), (y : Int)) ∈ qs)) :
    plotAll c ps fb = plotAll c qs fb := by
  apply frame_eq_of_pixels
  intro x y hx hy
  simp [pixel_plotAll _ _ _ _ _ hx hy, h x y hx hy]

theorem plotAll_append (c : Colour) (ps qs : List Pixel) (fb : Frame) :
    plotAll c (ps ++ qs) fb = plotAll c qs (plotAll c ps fb) := by
  simp [plotAll, List.foldl_append]

/-- The values of a loop `for v = a .. b` (R18). -/
theorem mem_intRange {a b v : Int} : v ∈ intRange a b ↔ a ≤ v ∧ v ≤ b := by
  unfold intRange
  simp only [List.mem_map, List.mem_range]
  constructor
  · rintro ⟨k, hk, rfl⟩; omega
  · intro h; exact ⟨(v - a).toNat, by omega, by omega⟩

/-- The positions of a row segment on the panel (R145). -/
theorem mem_hlinePixels {x0 x1 row x y : Int} : (x, y) ∈ hlinePixels x0 x1 row ↔
    y = row ∧ 0 ≤ row ∧ row ≤ 63 ∧ 0 ≤ x ∧ x ≤ 127 ∧ min x0 x1 ≤ x ∧ x ≤ max x0 x1 := by
  unfold hlinePixels
  split
  · simp; omega
  · simp only [List.mem_map, mem_intRange, Prod.mk.injEq]
    constructor
    · rintro ⟨v, hv, rfl, rfl⟩; omega
    · intro h; exact ⟨x, by omega, rfl, by omega⟩

/-- The positions of a column segment on the panel (R147). -/
theorem mem_vlinePixels {y0 y1 col x y : Int} : (x, y) ∈ vlinePixels y0 y1 col ↔
    x = col ∧ 0 ≤ col ∧ col ≤ 127 ∧ 0 ≤ y ∧ y ≤ 63 ∧ min y0 y1 ≤ y ∧ y ≤ max y0 y1 := by
  unfold vlinePixels
  split
  · simp; omega
  · simp only [List.mem_map, mem_intRange, Prod.mk.injEq]
    constructor
    · rintro ⟨v, hv, rfl, rfl⟩; omega
    · intro h; exact ⟨y, by omega, by omega, rfl⟩

/-- The positions of a bitmap's set bits (R124). -/
theorem mem_bitmapPixels {bitmap : List Byte} {width px py x y : Int} :
    (x, y) ∈ bitmapPixels bitmap width px py ↔
      ∃ i b : Nat, i < width.toNat ∧ b < 8 ∧ (byteAt bitmap i).getLsbD b = true ∧ x = px + i ∧ y = py + b := by
  simp only [bitmapPixels, List.mem_flatMap, List.mem_range, List.mem_map, List.mem_filter, Prod.mk.injEq]
  constructor
  · rintro ⟨i, hi, b, ⟨hb, hbit⟩, rfl, rfl⟩; exact ⟨i, b, hi, hb, hbit, rfl, rfl⟩
  · rintro ⟨i, b, hi, hb, hbit, rfl, rfl⟩; exact ⟨i, hi, b, ⟨hb, hbit⟩, rfl, rfl⟩

/-! ### The form of the memory -/

/-- The Frame Buffer of every state has 128 words and its Font Table 2048 bytes, so every operation keeps the form
and the reset state has it (R23, R27). -/
theorem Memory.wf_every (s : State) : Memory.wf s := by
  simp [Memory.wf]

end Sys2Proof.Machine
end

