-- ==== Sys2Proof/Laws/State.lean ====
section
/-! SUPPORT. One lemma per field per update of the state: what each named operation leaves in each field. -/

namespace Sys2Proof.Machine

@[simp] theorem deliver_fb (r : BitVec 32) (s : State) : (deliver r s).fb = s.fb := rfl
@[simp] theorem deliver_font (r : BitVec 32) (s : State) : (deliver r s).font = s.font := rfl
@[simp] theorem deliver_st (r : BitVec 32) (s : State) : (deliver r s).st = r := rfl
@[simp] theorem deliver_cur (r : BitVec 32) (s : State) : (deliver r s).cur = s.cur := rfl
@[simp] theorem deliver_rs (r : BitVec 32) (s : State) : (deliver r s).rs = .idle := rfl
@[simp] theorem deliver_latch (r : BitVec 32) (s : State) : (deliver r s).latch = s.latch := rfl
@[simp] theorem deliver_index (r : BitVec 32) (s : State) : (deliver r s).index = s.index + 1 := rfl
@[simp] theorem deliver_recordOwed (r : BitVec 32) (s : State) : (deliver r s).recordOwed = false := rfl
@[simp] theorem deliver_commands (r : BitVec 32) (s : State) : (deliver r s).commands = s.commands := rfl
@[simp] theorem deliver_answers (r : BitVec 32) (s : State) : (deliver r s).answers = s.answers := rfl
@[simp] theorem deliver_resetIn (r : BitVec 32) (s : State) : (deliver r s).resetIn = s.resetIn := rfl
@[simp] theorem deliver_completions (r : BitVec 32) (s : State) : (deliver r s).completions = s.completions ++ [r] := rfl
@[simp] theorem deliver_transactions (r : BitVec 32) (s : State) : (deliver r s).transactions = s.transactions := rfl
@[simp] theorem deliver_resets (r : BitVec 32) (s : State) : (deliver r s).resets = s.resets := rfl

@[simp] theorem raise_fb (c : Completion) (s : State) : (raise c s).fb = s.fb := rfl
@[simp] theorem raise_font (c : Completion) (s : State) : (raise c s).font = s.font := rfl
@[simp] theorem raise_st (c : Completion) (s : State) : (raise c s).st = recordOf c := rfl
@[simp] theorem raise_cur (c : Completion) (s : State) : (raise c s).cur = s.cur := rfl
@[simp] theorem raise_rs (c : Completion) (s : State) : (raise c s).rs = .idle := rfl
@[simp] theorem raise_latch (c : Completion) (s : State) : (raise c s).latch = s.latch := rfl
@[simp] theorem raise_index (c : Completion) (s : State) : (raise c s).index = s.index + 1 := rfl
@[simp] theorem raise_recordOwed (c : Completion) (s : State) : (raise c s).recordOwed = false := rfl
@[simp] theorem raise_commands (c : Completion) (s : State) : (raise c s).commands = s.commands := rfl
@[simp] theorem raise_answers (c : Completion) (s : State) : (raise c s).answers = s.answers := rfl
@[simp] theorem raise_resetIn (c : Completion) (s : State) : (raise c s).resetIn = s.resetIn := rfl
@[simp] theorem raise_completions (c : Completion) (s : State) : (raise c s).completions = s.completions ++ [recordOf c] := rfl
@[simp] theorem raise_transactions (c : Completion) (s : State) : (raise c s).transactions = s.transactions := rfl
@[simp] theorem raise_resets (c : Completion) (s : State) : (raise c s).resets = s.resets := rfl

@[simp] theorem completeOk_fb (s : State) : (completeOk s).fb = s.fb := rfl
@[simp] theorem completeOk_font (s : State) : (completeOk s).font = s.font := rfl
@[simp] theorem completeOk_st (s : State) : (completeOk s).st = recordOf .ok := rfl
@[simp] theorem completeOk_cur (s : State) : (completeOk s).cur = s.cur := rfl
@[simp] theorem completeOk_rs (s : State) : (completeOk s).rs = .idle := rfl
@[simp] theorem completeOk_latch (s : State) : (completeOk s).latch = s.latch := rfl
@[simp] theorem completeOk_index (s : State) : (completeOk s).index = s.index + 1 := rfl
@[simp] theorem completeOk_recordOwed (s : State) : (completeOk s).recordOwed = false := rfl
@[simp] theorem completeOk_commands (s : State) : (completeOk s).commands = s.commands := rfl
@[simp] theorem completeOk_answers (s : State) : (completeOk s).answers = s.answers := rfl
@[simp] theorem completeOk_resetIn (s : State) : (completeOk s).resetIn = s.resetIn := rfl
@[simp] theorem completeOk_completions (s : State) : (completeOk s).completions = s.completions ++ [recordOf .ok] := rfl
@[simp] theorem completeOk_transactions (s : State) : (completeOk s).transactions = s.transactions := rfl
@[simp] theorem completeOk_resets (s : State) : (completeOk s).resets = s.resets := rfl

@[simp] theorem draw_fb (c : Colour) (ps : List Pixel) (s : State) : (draw c ps s).fb = plotAll c ps s.fb := rfl
@[simp] theorem draw_font (c : Colour) (ps : List Pixel) (s : State) : (draw c ps s).font = s.font := rfl
@[simp] theorem draw_st (c : Colour) (ps : List Pixel) (s : State) : (draw c ps s).st = recordOf .ok := rfl
@[simp] theorem draw_cur (c : Colour) (ps : List Pixel) (s : State) : (draw c ps s).cur = s.cur := rfl
@[simp] theorem draw_rs (c : Colour) (ps : List Pixel) (s : State) : (draw c ps s).rs = .idle := rfl
@[simp] theorem draw_latch (c : Colour) (ps : List Pixel) (s : State) : (draw c ps s).latch = s.latch := rfl
@[simp] theorem draw_index (c : Colour) (ps : List Pixel) (s : State) : (draw c ps s).index = s.index + 1 := rfl
@[simp] theorem draw_recordOwed (c : Colour) (ps : List Pixel) (s : State) : (draw c ps s).recordOwed = false := rfl
@[simp] theorem draw_commands (c : Colour) (ps : List Pixel) (s : State) : (draw c ps s).commands = s.commands := rfl
@[simp] theorem draw_answers (c : Colour) (ps : List Pixel) (s : State) : (draw c ps s).answers = s.answers := rfl
@[simp] theorem draw_resetIn (c : Colour) (ps : List Pixel) (s : State) : (draw c ps s).resetIn = s.resetIn := rfl
@[simp] theorem draw_completions (c : Colour) (ps : List Pixel) (s : State) : (draw c ps s).completions = s.completions ++ [recordOf .ok] := rfl
@[simp] theorem draw_transactions (c : Colour) (ps : List Pixel) (s : State) : (draw c ps s).transactions = s.transactions := rfl
@[simp] theorem draw_resets (c : Colour) (ps : List Pixel) (s : State) : (draw c ps s).resets = s.resets := rfl

@[simp] theorem emit_fb (t : List Byte) (w : RunState) (s : State) : (emit t w s).fb = s.fb := rfl
@[simp] theorem emit_font (t : List Byte) (w : RunState) (s : State) : (emit t w s).font = s.font := rfl
@[simp] theorem emit_st (t : List Byte) (w : RunState) (s : State) : (emit t w s).st = s.st := rfl
@[simp] theorem emit_cur (t : List Byte) (w : RunState) (s : State) : (emit t w s).cur = s.cur := rfl
@[simp] theorem emit_rs (t : List Byte) (w : RunState) (s : State) : (emit t w s).rs = w := rfl
@[simp] theorem emit_latch (t : List Byte) (w : RunState) (s : State) : (emit t w s).latch = s.latch := rfl
@[simp] theorem emit_index (t : List Byte) (w : RunState) (s : State) : (emit t w s).index = s.index := rfl
@[simp] theorem emit_recordOwed (t : List Byte) (w : RunState) (s : State) : (emit t w s).recordOwed = s.recordOwed := rfl
@[simp] theorem emit_commands (t : List Byte) (w : RunState) (s : State) : (emit t w s).commands = s.commands := rfl
@[simp] theorem emit_answers (t : List Byte) (w : RunState) (s : State) : (emit t w s).answers = s.answers := rfl
@[simp] theorem emit_resetIn (t : List Byte) (w : RunState) (s : State) : (emit t w s).resetIn = s.resetIn := rfl
@[simp] theorem emit_completions (t : List Byte) (w : RunState) (s : State) : (emit t w s).completions = s.completions := rfl
@[simp] theorem emit_transactions (t : List Byte) (w : RunState) (s : State) : (emit t w s).transactions = s.transactions ++ [t] := rfl
@[simp] theorem emit_resets (t : List Byte) (w : RunState) (s : State) : (emit t w s).resets = s.resets := rfl

@[simp] theorem sendTriad_fb (p e : Fin 8) (s : State) : (sendTriad p e s).fb = s.fb := rfl
@[simp] theorem sendTriad_font (p e : Fin 8) (s : State) : (sendTriad p e s).font = s.font := rfl
@[simp] theorem sendTriad_st (p e : Fin 8) (s : State) : (sendTriad p e s).st = s.st := rfl
@[simp] theorem sendTriad_cur (p e : Fin 8) (s : State) : (sendTriad p e s).cur = curOf (cursorTriad p) := rfl
@[simp] theorem sendTriad_rs (p e : Fin 8) (s : State) : (sendTriad p e s).rs = .curWait p e := rfl
@[simp] theorem sendTriad_latch (p e : Fin 8) (s : State) : (sendTriad p e s).latch = s.latch := rfl
@[simp] theorem sendTriad_index (p e : Fin 8) (s : State) : (sendTriad p e s).index = s.index := rfl
@[simp] theorem sendTriad_recordOwed (p e : Fin 8) (s : State) : (sendTriad p e s).recordOwed = s.recordOwed := rfl
@[simp] theorem sendTriad_commands (p e : Fin 8) (s : State) : (sendTriad p e s).commands = s.commands := rfl
@[simp] theorem sendTriad_answers (p e : Fin 8) (s : State) : (sendTriad p e s).answers = s.answers := rfl
@[simp] theorem sendTriad_resetIn (p e : Fin 8) (s : State) : (sendTriad p e s).resetIn = s.resetIn := rfl
@[simp] theorem sendTriad_completions (p e : Fin 8) (s : State) : (sendTriad p e s).completions = s.completions := rfl
@[simp] theorem sendTriad_transactions (p e : Fin 8) (s : State) : (sendTriad p e s).transactions = s.transactions ++ [cursorTriad p] := rfl
@[simp] theorem sendTriad_resets (p e : Fin 8) (s : State) : (sendTriad p e s).resets = s.resets := rfl

@[simp] theorem sendData_fb (p e : Fin 8) (s : State) : (sendData p e s).fb = s.fb := rfl
@[simp] theorem sendData_font (p e : Fin 8) (s : State) : (sendData p e s).font = s.font := rfl
@[simp] theorem sendData_st (p e : Fin 8) (s : State) : (sendData p e s).st = s.st := rfl
@[simp] theorem sendData_cur (p e : Fin 8) (s : State) : (sendData p e s).cur = s.cur := rfl
@[simp] theorem sendData_rs (p e : Fin 8) (s : State) : (sendData p e s).rs = .dataWait p e := rfl
@[simp] theorem sendData_latch (p e : Fin 8) (s : State) : (sendData p e s).latch = s.latch := rfl
@[simp] theorem sendData_index (p e : Fin 8) (s : State) : (sendData p e s).index = s.index := rfl
@[simp] theorem sendData_recordOwed (p e : Fin 8) (s : State) : (sendData p e s).recordOwed = s.recordOwed := rfl
@[simp] theorem sendData_commands (p e : Fin 8) (s : State) : (sendData p e s).commands = s.commands := rfl
@[simp] theorem sendData_answers (p e : Fin 8) (s : State) : (sendData p e s).answers = s.answers := rfl
@[simp] theorem sendData_resetIn (p e : Fin 8) (s : State) : (sendData p e s).resetIn = s.resetIn := rfl
@[simp] theorem sendData_completions (p e : Fin 8) (s : State) : (sendData p e s).completions = s.completions := rfl
@[simp] theorem sendData_transactions (p e : Fin 8) (s : State) : (sendData p e s).transactions = s.transactions ++ [dataFrame s.fb p] := rfl
@[simp] theorem sendData_resets (p e : Fin 8) (s : State) : (sendData p e s).resets = s.resets := rfl

@[simp] theorem accept_fb (c : Command) (rest : List Command) (s : State) : (accept c rest s).fb = s.fb := rfl
@[simp] theorem accept_font (c : Command) (rest : List Command) (s : State) : (accept c rest s).font = s.font := rfl
@[simp] theorem accept_st (c : Command) (rest : List Command) (s : State) : (accept c rest s).st = s.st := rfl
@[simp] theorem accept_cur (c : Command) (rest : List Command) (s : State) : (accept c rest s).cur = s.cur := rfl
@[simp] theorem accept_rs (c : Command) (rest : List Command) (s : State) : (accept c rest s).rs = .exec := rfl
@[simp] theorem accept_latch (c : Command) (rest : List Command) (s : State) : (accept c rest s).latch = c := rfl
@[simp] theorem accept_index (c : Command) (rest : List Command) (s : State) : (accept c rest s).index = s.index := rfl
@[simp] theorem accept_recordOwed (c : Command) (rest : List Command) (s : State) : (accept c rest s).recordOwed = true := rfl
@[simp] theorem accept_commands (c : Command) (rest : List Command) (s : State) : (accept c rest s).commands = rest := rfl
@[simp] theorem accept_answers (c : Command) (rest : List Command) (s : State) : (accept c rest s).answers = s.answers := rfl
@[simp] theorem accept_resetIn (c : Command) (rest : List Command) (s : State) : (accept c rest s).resetIn = s.resetIn := rfl
@[simp] theorem accept_completions (c : Command) (rest : List Command) (s : State) : (accept c rest s).completions = s.completions := rfl
@[simp] theorem accept_transactions (c : Command) (rest : List Command) (s : State) : (accept c rest s).transactions = s.transactions := rfl
@[simp] theorem accept_resets (c : Command) (rest : List Command) (s : State) : (accept c rest s).resets = s.resets := rfl

@[simp] theorem offerNext_fb (c : Command) (s : State) : (offerNext c s).fb = s.fb := rfl
@[simp] theorem offerNext_font (c : Command) (s : State) : (offerNext c s).font = s.font := rfl
@[simp] theorem offerNext_st (c : Command) (s : State) : (offerNext c s).st = s.st := rfl
@[simp] theorem offerNext_cur (c : Command) (s : State) : (offerNext c s).cur = s.cur := rfl
@[simp] theorem offerNext_rs (c : Command) (s : State) : (offerNext c s).rs = .idle := rfl
@[simp] theorem offerNext_latch (c : Command) (s : State) : (offerNext c s).latch = s.latch := rfl
@[simp] theorem offerNext_index (c : Command) (s : State) : (offerNext c s).index = s.index := rfl
@[simp] theorem offerNext_recordOwed (c : Command) (s : State) : (offerNext c s).recordOwed = s.recordOwed := rfl
@[simp] theorem offerNext_commands (c : Command) (s : State) : (offerNext c s).commands = c :: s.commands := rfl
@[simp] theorem offerNext_answers (c : Command) (s : State) : (offerNext c s).answers = s.answers := rfl
@[simp] theorem offerNext_resetIn (c : Command) (s : State) : (offerNext c s).resetIn = false := rfl
@[simp] theorem offerNext_completions (c : Command) (s : State) : (offerNext c s).completions = s.completions := rfl
@[simp] theorem offerNext_transactions (c : Command) (s : State) : (offerNext c s).transactions = s.transactions := rfl
@[simp] theorem offerNext_resets (c : Command) (s : State) : (offerNext c s).resets = s.resets := rfl

@[simp] theorem takeReset_fb (s : State) : (takeReset s).fb = frameOf (Config.fbReset (s.resets + 1)) := rfl
@[simp] theorem takeReset_font (s : State) : (takeReset s).font = s.font := rfl
@[simp] theorem takeReset_st (s : State) : (takeReset s).st = 0 := rfl
@[simp] theorem takeReset_cur (s : State) : (takeReset s).cur = Config.curReset (s.resets + 1) := rfl
@[simp] theorem takeReset_rs (s : State) : (takeReset s).rs = .idle := rfl
@[simp] theorem takeReset_latch (s : State) : (takeReset s).latch = ⟨Config.latchWordReset (s.resets + 1), Config.latchPayloadReset (s.resets + 1)⟩ := rfl
@[simp] theorem takeReset_index (s : State) : (takeReset s).index = s.index := rfl
@[simp] theorem takeReset_recordOwed (s : State) : (takeReset s).recordOwed = s.recordOwed := rfl
@[simp] theorem takeReset_commands (s : State) : (takeReset s).commands = s.commands := rfl
@[simp] theorem takeReset_answers (s : State) : (takeReset s).answers = if s.rs.waiting then s.answers.tail else s.answers := rfl
@[simp] theorem takeReset_resetIn (s : State) : (takeReset s).resetIn = false := rfl
@[simp] theorem takeReset_completions (s : State) : (takeReset s).completions = s.completions := rfl
@[simp] theorem takeReset_transactions (s : State) : (takeReset s).transactions = s.transactions := rfl
@[simp] theorem takeReset_resets (s : State) : (takeReset s).resets = s.resets + 1 := rfl

end Sys2Proof.Machine
end

