-- ==== Sys2Proof/Laws/Draw.lean ====
section
/-! SUPPORT. What a drawing operation does, said once: the lemma the statements about drawing operations rest on. -/

namespace Sys2Proof.Machine

/-- A drawing operation gives its colour to the panel positions of its list and to no others, completes `OK`, and changes
nothing else (R119, R140, R271). -/
theorem draw_spec (c : Colour) (ps : List Pixel) (s : State) (covers : Int → Int → Prop)
    (h : ∀ x y : Nat, x < 128 → y < 64 → (((x : Int), (y : Int)) ∈ ps ↔ covers x y)) :
    Paints c covers s.fb (draw c ps s).fb ∧ EndedWith 0x00000000#32 s (draw c ps s) ∧
      SameBesidesFb s (draw c ps s) := by
  refine ⟨?_, by simp [EndedWith, recordOf, recordWord], by simp [SameBesidesFb]⟩
  intro x y hx hy
  simp only [draw_fb, pixel_plotAll _ _ _ _ _ hx hy]
  exact ⟨fun hc => if_pos ((h x y hx hy).mpr hc), fun hc => if_neg fun hm => hc ((h x y hx hy).mp hm)⟩

/-- Two drawing operations of one colour that name the same panel positions are the same. -/
theorem draw_eq_of_mem (c : Colour) {ps qs : List Pixel} (s : State)
    (h : ∀ x y : Nat, x < 128 → y < 64 → (((x : Int), (y : Int)) ∈ ps ↔ ((x : Int), (y : Int)) ∈ qs)) :
    draw c ps s = draw c qs s := by
  simp only [draw, plotAll_eq_of_mem c s.fb h]

/-- The positions of a line's step: `width` of them along the minor axis (R141, R142). -/
theorem mem_strokePixels {steep : Bool} {width x y px py : Int} : (px, py) ∈ strokePixels steep width x y ↔
    ∃ k : Int, 0 ≤ k ∧ k < width ∧ (px, py) = if steep then (y + k, x) else (x, y + k) := by
  simp only [strokePixels, List.mem_map, List.mem_range]
  constructor
  · rintro ⟨k, hk, h⟩
    refine ⟨k, by omega, by omega, ?_⟩
    cases steep <;> simpa using h.symm
  · rintro ⟨k, h0, hk, h⟩
    refine ⟨k.toNat, by omega, ?_⟩
    cases steep <;> simp_all

/-- Whether `DRAWTEXT` takes a start position (R187). -/
theorem inTextWindow_iff {x y : Int} : inTextWindow x y = true ↔ 0 ≤ x ∧ x ≤ 127 ∧ 0 ≤ y ∧ y ≤ 55 := by
  simp [inTextWindow, Config.textXMax, Config.textYMax]
  omega

/-- The page an operand names (R201). -/
theorem pageOf_val (p : Fin 8) : pageOf (p.val : Int) = some p := by
  have := p.isLt
  simp [pageOf]; omega

/-- An operand outside `[0,7]` names no page (R201). -/
theorem pageOf_eq_none_iff {v : Int} : pageOf v = none ↔ v < 0 ∨ v > 7 := by
  unfold pageOf
  split <;> simp <;> omega

end Sys2Proof.Machine
end

