-- ==== Sys2Proof/Laws/PerInstr.lean ====
section
/-! SUPPORT. Statements about every instruction as syntax, one lemma per constructor. -/

namespace Sys2Proof.Laws

/-- The encoding of an instruction has its opcode and zero in `RSV` and `A6` (R82, R85, R86). -/
def EncodedFields.Statement (i : Instr) : Prop :=
  opcodeField (encode i).cw = opcodeOf i ∧ reservedField (encode i).cw = 0 ∧ slot 6 (encode i).cw = 0

/-- A word built from fields has them. -/
theorem EncodedFields.of_commandWord {i : Instr} {c : Colour} {a0 a1 a2 a3 a4 a5 : BitVec 16}
    (h : (encode i).cw = commandWord (opcodeOf i) c a0 a1 a2 a3 a4 a5) : EncodedFields.Statement i := by
  have key := fields_commandWord (opcodeOf i) c a0 a1 a2 a3 a4 a5
  rw [EncodedFields.Statement, h]
  exact ⟨key.1, key.2.2.1, key.2.2.2.2.2.2.2.2.2⟩

theorem EncodedFields.clear :
    EncodedFields.Statement (.clear) := EncodedFields.of_commandWord rfl

theorem EncodedFields.setPixel (x y : Int) (color : Colour) :
    EncodedFields.Statement (.setPixel x y color) := EncodedFields.of_commandWord rfl

theorem EncodedFields.blit (bitmap : List Byte) (width x y : Int) :
    EncodedFields.Statement (.blit bitmap width x y) := EncodedFields.of_commandWord rfl

theorem EncodedFields.replaceAll (bitmap64 : List Byte) :
    EncodedFields.Statement (.replaceAll bitmap64) := EncodedFields.of_commandWord rfl

theorem EncodedFields.drawLine (x0 y0 x1 y1 width : Int) (color : Colour) :
    EncodedFields.Statement (.drawLine x0 y0 x1 y1 width color) := EncodedFields.of_commandWord rfl

theorem EncodedFields.hline (x0 x1 y : Int) (color : Colour) :
    EncodedFields.Statement (.hline x0 x1 y color) := EncodedFields.of_commandWord rfl

theorem EncodedFields.vline (y0 y1 x : Int) (color : Colour) :
    EncodedFields.Statement (.vline y0 y1 x color) := EncodedFields.of_commandWord rfl

theorem EncodedFields.drawRect (x0 y0 x1 y1 : Int) (color : Colour) :
    EncodedFields.Statement (.drawRect x0 y0 x1 y1 color) := EncodedFields.of_commandWord rfl

theorem EncodedFields.fillRect (x0 y0 x1 y1 : Int) (color : Colour) :
    EncodedFields.Statement (.fillRect x0 y0 x1 y1 color) := EncodedFields.of_commandWord rfl

theorem EncodedFields.drawTri (x0 y0 x1 y1 x2 y2 : Int) (color : Colour) :
    EncodedFields.Statement (.drawTri x0 y0 x1 y1 x2 y2 color) := EncodedFields.of_commandWord rfl

theorem EncodedFields.drawEqTri (tipX tipY height width : Int) (color : Colour) :
    EncodedFields.Statement (.drawEqTri tipX tipY height width color) := EncodedFields.of_commandWord rfl

theorem EncodedFields.drawCircle (cx cy r : Int) (color : Colour) :
    EncodedFields.Statement (.drawCircle cx cy r color) := EncodedFields.of_commandWord rfl

theorem EncodedFields.fillCircle (cx cy r : Int) (color : Colour) :
    EncodedFields.Statement (.fillCircle cx cy r color) := EncodedFields.of_commandWord rfl

theorem EncodedFields.drawChar (c : Byte) (x y : Int) :
    EncodedFields.Statement (.drawChar c x y) := EncodedFields.of_commandWord rfl

theorem EncodedFields.drawText (text : List Byte) (x y : Int) :
    EncodedFields.Statement (.drawText text x y) := EncodedFields.of_commandWord rfl

theorem EncodedFields.render (startPage endPage : Int) :
    EncodedFields.Statement (.render startPage endPage) := EncodedFields.of_commandWord rfl

end Sys2Proof.Laws
end

