-- ==== Sys2Proof/Laws/Record.lean ====
section
/-! SUPPORT. The fields of a completion record (spec/10_state.md R29). -/

namespace Sys2Proof.Machine

/-- A record is its seven fields. -/
theorem record_eq_fields (st : BitVec 32) : st =
    stReserved st ++ BitVec.ofBool (stFail st) ++ stActual st ++ stExpected st ++ stPage st ++
      BitVec.ofBool (stPhase st) ++ stCode st := by
  have h1 : BitVec.ofBool (stFail st) = st.extractLsb' 24 1 := by
    apply BitVec.eq_of_getLsbD_eq
    intro i hi
    obtain rfl : i = 0 := by omega
    simp [stFail]
  have h2 : BitVec.ofBool (stPhase st) = st.extractLsb' 4 1 := by
    apply BitVec.eq_of_getLsbD_eq
    intro i hi
    obtain rfl : i = 0 := by omega
    simp [stPhase]
  rw [h1, h2]
  unfold stReserved stActual stExpected stPage stCode
  rw [BitVec.extractLsb'_append_extractLsb'_eq_extractLsb' (by rfl),
    BitVec.extractLsb'_append_extractLsb'_eq_extractLsb' (by rfl),
    BitVec.extractLsb'_append_extractLsb'_eq_extractLsb' (by rfl),
    BitVec.extractLsb'_append_extractLsb'_eq_extractLsb' (by rfl),
    BitVec.extractLsb'_append_extractLsb'_eq_extractLsb' (by rfl),
    BitVec.extractLsb'_append_extractLsb'_eq_extractLsb' (by rfl)]
  simp

theorem ofBool_inj {a b : Bool} (h : BitVec.ofBool a = BitVec.ofBool b) : a = b := by
  revert h; cases a <;> cases b <;> decide

/-- The fields of a record built from fields. -/
theorem fields_recordWord (fail : Bool) (actual expected : Byte) (page : BitVec 3) (phase : Bool) (code : BitVec 4) :
    stFail (recordWord fail actual expected page phase code) = fail ∧
    stActual (recordWord fail actual expected page phase code) = actual ∧
    stExpected (recordWord fail actual expected page phase code) = expected ∧
    stPage (recordWord fail actual expected page phase code) = page ∧
    stPhase (recordWord fail actual expected page phase code) = phase ∧
    stCode (recordWord fail actual expected page phase code) = code ∧
    stReserved (recordWord fail actual expected page phase code) = 0 := by
  have h := record_eq_fields (recordWord fail actual expected page phase code)
  conv at h => lhs; unfold recordWord
  obtain ⟨h, hc⟩ := append_eq_append_iff.mp h
  simp only [append_eq_append_iff] at h
  obtain ⟨⟨⟨⟨⟨hr, hf⟩, ha⟩, he⟩, hp⟩, hph⟩ := h
  exact ⟨(ofBool_inj hf).symm, ha.symm, he.symm, hp.symm, (ofBool_inj hph).symm, hc.symm, hr.symm⟩

end Sys2Proof.Machine
end

