-- ==== Sys2Proof/Laws/Step.lean ====
section
/-! SUPPORT. What an instruction and a step can do, said once: the lemmas an invariant's proof rests on. -/

namespace Sys2Proof.Machine

/-- The ways an instruction can end: it completes `OK` having written the Frame Buffer or not, it rejects a text, it rejects
a page, or it is a `RENDER` that has sent the triad of its first page (R119, R187, R201, R209). -/
theorem exec_cases {i : Instr} {s t : State} (h : exec i s = .next t) :
    (∃ fb', t = completeOk { s with fb := fb' }) ∨
    (t = raise .textRejected s ∧ ∃ text x y, i = .drawText text x y) ∨
    (t = raise .pageRange s ∧ ∃ p e, i = .render p e) ∨
    ∃ p e : Fin 8, p ≤ e ∧ t = sendTriad p e s ∧ ∃ v w, i = .render v w ∧ pageOf v = some p ∧ pageOf w = some e := by
  cases i
  case drawText text x y =>
    simp only [exec, execDrawText] at h
    split at h <;> cases h
    · exact .inl ⟨_, rfl⟩
    · exact .inr (.inl ⟨rfl, text, x, y, rfl⟩)
  case render v w =>
    simp only [exec, execRender] at h
    split at h
    · split at h <;> cases h
      · exact .inr (.inr (.inr ⟨_, _, ‹_›, rfl, _, _, rfl, ‹_›, ‹_›⟩))
      · exact .inl ⟨s.fb, rfl⟩
    · cases h; exact .inr (.inr (.inl ⟨rfl, v, w, rfl⟩))
  all_goals
    cases h
    exact .inl ⟨_, rfl⟩

/-- A step that takes the reset event. -/
theorem step_of_resetIn {s : State} (h : s.resetIn = true) : step s = .next (takeReset s) := by
  simp [step, cycle, h]

/-- A step of an idle block without a command. -/
theorem step_of_idle_nil {s : State} (h : s.resetIn = false) (hr : s.rs = .idle) (hc : s.commands = []) :
    step s = .next s := by
  simp [step, cycle, h, hr, hc]

/-- A step of an idle block with a command. -/
theorem step_of_idle_cons {s : State} {c : Command} {rest : List Command} (h : s.resetIn = false) (hr : s.rs = .idle)
    (hc : s.commands = c :: rest) : step s = runLatched (accept c rest s) := by
  simp [step, cycle, h, hr, hc]

/-- A step of a `RENDER` that waits for a triad's answer. -/
theorem step_of_curWait {s : State} {p e : Fin 8} (h : s.resetIn = false) (hr : s.rs = .curWait p e) :
    step s = .next (triadAnswered p e s) := by
  simp [step, cycle, h, hr]

/-- A step of a `RENDER` that waits for a data frame's answer. -/
theorem step_of_dataWait {s : State} {p e : Fin 8} (h : s.resetIn = false) (hr : s.rs = .dataWait p e) :
    step s = .next (dataAnswered p e s) := by
  simp [step, cycle, h, hr]

/-- Running the latched command: an illegal one is raised, another one runs (R92). -/
theorem runLatched_cases {s t : State} (h : runLatched s = .next t) :
    (t = raise .illegal s ∧ ∃ e, decode s.latch = .error e) ∨ ∃ i, decode s.latch = .ok i ∧ exec i s = .next t := by
  unfold runLatched at h
  split at h
  · exact .inr ⟨_, ‹_›, h⟩
  · cases h; exact .inl ⟨rfl, _, ‹_›⟩

/-- Everything a step can do: take a reset, wait for a command, run the command accepted, run the one latched, take the sink's
answer or wait for it (R81, R209, R301). -/
theorem step_cases {s t : State} (h : step s = .next t) :
    (s.resetIn = true ∧ t = takeReset s) ∨
    (s.resetIn = false ∧ s.rs = .idle ∧ s.commands = [] ∧ t = s) ∨
    (s.resetIn = false ∧ s.rs = .idle ∧ ∃ c rest, s.commands = c :: rest ∧ runLatched (accept c rest s) = .next t) ∨
    (s.resetIn = false ∧ s.rs = .exec ∧ runLatched s = .next t) ∨
    (s.resetIn = false ∧ ∃ p e, s.rs = .curWait p e ∧ t = triadAnswered p e s) ∨
    (s.resetIn = false ∧ ∃ p e, s.rs = .dataWait p e ∧ t = dataAnswered p e s) := by
  cases hi : s.resetIn with
  | true =>
    rw [step_of_resetIn hi] at h
    cases h; exact .inl ⟨rfl, rfl⟩
  | false =>
    cases hr : s.rs with
    | idle =>
      cases hc : s.commands with
      | nil =>
        rw [step_of_idle_nil hi hr hc] at h
        cases h; simp
      | cons c rest =>
        rw [step_of_idle_cons hi hr hc] at h
        exact .inr (.inr (.inl ⟨rfl, rfl, c, rest, rfl, h⟩))
    | exec =>
      simp only [step, cycle, hi, hr] at h
      exact .inr (.inr (.inr (.inl ⟨rfl, rfl, h⟩)))
    | curWait p e =>
      rw [step_of_curWait hi hr] at h
      cases h; exact .inr (.inr (.inr (.inr (.inl ⟨rfl, p, e, rfl, rfl⟩))))
    | dataWait p e =>
      rw [step_of_dataWait hi hr] at h
      cases h; exact .inr (.inr (.inr (.inr (.inr ⟨rfl, p, e, rfl, rfl⟩))))

/-! ### Runs -/

/-- A run of one step and more. -/
theorem stepN_succ {k : Nat} {s t : State} (h : step s = .next t) : stepN (k + 1) s = stepN k t := by
  simp only [stepN, h]

/-- A run in two parts. -/
theorem stepN_add {j k : Nat} {s t : State} (h : stepN j s = .next t) : stepN (j + k) s = stepN k t := by
  induction j generalizing s with
  | zero => cases h; simp
  | succ j ih =>
    rw [Nat.succ_add]
    simp only [stepN] at h ⊢
    split at h
    · exact ih h
    · cases h
    · cases h

end Sys2Proof.Machine
end

