-- ==== Sys2Proof/Machine/Assembly.lean ====
section
/-! DEFINITION. The textual form of a command (spec/30_encoding.md R97, R98): the mnemonic, then the operands in
the order of the call, separated by commas; a payload stands in braces as hexadecimal bytes, in the call's place
of the array argument, as the examples of R97 write it. No step of the machine uses it. -/

namespace Sys2Proof.Machine

/-- One upper-case hexadecimal digit. -/
def hexDigit (n : Nat) : Char := if n < 10 then Char.ofNat (48 + n) else Char.ofNat (55 + n)

/-- A byte as two hexadecimal digits without prefix. -/
def byteText (b : Byte) : List Char := [hexDigit (b.toNat / 16), hexDigit (b.toNat % 16)]

/-- The decimal digits of a natural number, at most `fuel + 1` of them. -/
def natDigits : Nat → Nat → List Char
  | 0, n => [hexDigit (n % 10)]
  | fuel + 1, n => if n < 10 then [hexDigit n] else natDigits fuel (n / 10) ++ [hexDigit (n % 10)]

/-- An integer in decimal, a leading `-` for a negative one. -/
def intText (v : Int) : List Char :=
  if v < 0 then '-' :: natDigits v.natAbs v.natAbs else natDigits v.natAbs v.natAbs

/-- Texts joined by a separator. -/
def joinText (sep : List Char) : List (List Char) → List Char
  | [] => []
  | [t] => t
  | t :: u :: rest => t ++ sep ++ joinText sep (u :: rest)

/-- A payload: its bytes in braces, separated by spaces. -/
def payloadText (bytes : List Byte) : List Char :=
  Char.ofNat 123 :: joinText [' '] (bytes.map byteText) ++ [Char.ofNat 125]

/-- The colour operand as the number the call takes (R84). -/
def colourText (c : Colour) : List Char := if c then ['1'] else ['0']

/-- A mnemonic and its operands. -/
def commandText (mnemonic : String) (operands : List (List Char)) : List Char :=
  match operands with
  | [] => mnemonic.toList
  | _ => mnemonic.toList ++ ' ' :: joinText [',', ' '] operands

/-- The textual form of an instruction, as a list of characters (R97). -/
def asmText : Instr → List Char
  | .clear => commandText "CLEAR" []
  | .setPixel x y c => commandText "SETPIXEL" ([x, y].map intText ++ [colourText c])
  | .blit bitmap width x y => commandText "BLIT" (payloadText bitmap :: [width, x, y].map intText)
  | .replaceAll bitmap64 => commandText "REPLACEALL" [payloadText bitmap64]
  | .drawLine x0 y0 x1 y1 width c =>
      commandText "DRAWLINE" ([x0, y0, x1, y1, width].map intText ++ [colourText c])
  | .hline x0 x1 y c => commandText "HLINE" ([x0, x1, y].map intText ++ [colourText c])
  | .vline y0 y1 x c => commandText "VLINE" ([y0, y1, x].map intText ++ [colourText c])
  | .drawRect x0 y0 x1 y1 c => commandText "DRAWRECT" ([x0, y0, x1, y1].map intText ++ [colourText c])
  | .fillRect x0 y0 x1 y1 c => commandText "FILLRECT" ([x0, y0, x1, y1].map intText ++ [colourText c])
  | .drawTri x0 y0 x1 y1 x2 y2 c =>
      commandText "DRAWTRI" ([x0, y0, x1, y1, x2, y2].map intText ++ [colourText c])
  | .drawEqTri tipX tipY height width c =>
      commandText "DRAWEQTRI" ([tipX, tipY, height, width].map intText ++ [colourText c])
  | .drawCircle cx cy r c => commandText "DRAWCIRCLE" ([cx, cy, r].map intText ++ [colourText c])
  | .fillCircle cx cy r c => commandText "FILLCIRCLE" ([cx, cy, r].map intText ++ [colourText c])
  | .drawChar c x y => commandText "DRAWCHAR" [intText c.toNat, intText x, intText y]
  | .drawText text x y => commandText "DRAWTEXT" (payloadText text :: [x, y].map intText)
  | .render startPage endPage => commandText "RENDER" ([startPage, endPage].map intText)

end Sys2Proof.Machine
end

