-- ==== Sys2Proof/Tests/Slice0.lean ====
section
/-! SUPPORT. Tests. Expected results are those of spec/95_test_vectors.md, whose name stands in each comment (V-...), or
are worked out from the rule named there. Then, for every statement with hypotheses, a concrete state and operands
that meet them. -/

namespace Sys2Proof.Machine.Tests

set_option Elab.async false

/-! ### WellFormed: one ill-formed term for each check -/

theorem test_wf_slot_above : Instr.wf (.setPixel 32768 0 true) = false := by decide
theorem test_wf_slot_below : Instr.wf (.render 0 (-32769)) = false := by decide
theorem test_wf_blit_payload : Instr.wf (.blit [0xFF] 2 0 0) = false := by decide
theorem test_wf_blit_negative_width : Instr.wf (.blit [0xFF] (-1) 0 0) = false := by decide
theorem test_wf_replaceAll_payload : Instr.wf (.replaceAll [0xFF]) = false := by decide
theorem test_wf_drawText_payload : Instr.wf (.drawText (List.replicate 256 0x41) 0 0) = false := by decide +kernel
theorem test_wf_slots_of_every_shape :
    [Instr.drawLine 0 0 0 0 40000 true, .hline 0 0 40000 true, .vline 40000 0 0 true, .drawRect 0 40000 0 0 true,
      .fillRect 0 0 40000 0 true, .drawTri 0 0 0 0 0 40000 true, .drawEqTri 0 0 40000 0 true,
      .drawCircle 0 0 40000 true, .fillCircle 40000 0 0 true, .drawChar 0 40000 0,
      .drawText [] 0 40000].all (fun i => !i.wf) = true := by decide
theorem test_wf_of_the_extreme_slots : Instr.wf (.setPixel (-32768) 32767 true) = true := by decide

/-! ### Decoding: the words of V-ENC-1, one for each constructor -/

theorem test_decode_clear : decode ⟨0x00000000000000000000000000000001, []⟩ = .ok .clear := by decide
theorem test_decode_setPixel :
    decode ⟨0x00000000000000000000000A00030102, []⟩ = .ok (.setPixel 3 10 true) := by decide
theorem test_decode_blit : decode ⟨0x00000000000000000004003C007E0003, [0x01, 0x02, 0x04, 0x08]⟩ =
    .ok (.blit [0x01, 0x02, 0x04, 0x08] 4 126 60) := by decide
theorem test_decode_replaceAll : decode ⟨0x00000000000000000000000000000004, List.replicate 1024 0x5A⟩ =
    .ok (.replaceAll (List.replicate 1024 0x5A)) := by decide +kernel
theorem test_decode_drawLine :
    decode ⟨0x000000000001000100030001FFFD0110, []⟩ = .ok (.drawLine (-3) 1 3 1 1 true) := by decide
theorem test_decode_hline :
    decode ⟨0x0000000000000000003F00C8FFFB0111, []⟩ = .ok (.hline (-5) 200 63 true) := by decide
theorem test_decode_vline :
    decode ⟨0x00000000000000000007000900020112, []⟩ = .ok (.vline 2 9 7 true) := by decide
theorem test_decode_drawRect :
    decode ⟨0x000000000000000A000A000000000113, []⟩ = .ok (.drawRect 0 0 10 10 true) := by decide
theorem test_decode_fillRect :
    decode ⟨0x00000000000000030004000100020114, []⟩ = .ok (.fillRect 2 1 4 3 true) := by decide
theorem test_decode_drawTri :
    decode ⟨0x00000004000200000004000000000115, []⟩ = .ok (.drawTri 0 0 4 0 2 4 true) := by decide
theorem test_decode_drawEqTri :
    decode ⟨0x0000000000000001FFF8000A000A0116, []⟩ = .ok (.drawEqTri 10 10 (-8) 1 true) := by decide
theorem test_decode_drawCircle :
    decode ⟨0x0000000000000000000A002000200117, []⟩ = .ok (.drawCircle 32 32 10 true) := by decide
theorem test_decode_fillCircle :
    decode ⟨0x00000000000000000002000500050118, []⟩ = .ok (.fillCircle 5 5 2 true) := by decide
theorem test_decode_drawChar :
    decode ⟨0x00000000000000000008000200410020, []⟩ = .ok (.drawChar 65 2 8) := by decide
theorem test_decode_drawText :
    decode ⟨0x00000000000000000002000000800021, [0x48, 0x69]⟩ = .ok (.drawText [0x48, 0x69] 128 0) := by decide
theorem test_decode_render :
    decode ⟨0x00000000000000000000000100020030, []⟩ = .ok (.render 2 1) := by decide

/-- V-ENC-2: the words that spell no operation. -/
theorem test_decode_no_row :
    ([0x00000000000000000000000000000000, 0x00000000000000000000000000000005, 0x000000000000000000000000000000FF,
      0x00000000000000000000000000000101, 0x00000000000000000000000A00030302, 0x00000000000000000001000A00030102,
      0x00010000000000000000000A00030102, 0x00000000000000000000000001000020, 0x00000000000000000100000000000021,
      0x00000000000000000000000700000130, 0x00000000000000000000000800000130] : List CommandWord).all
      (fun w => decide (decode ⟨w, []⟩ = .error .noRow)) = true := by decide

/-- V-ENC-2, V-ENC-3: the payloads of another length than required. -/
theorem test_decode_payload_length :
    decode ⟨0x00000000000000000002000000000021, [0x48, 0x69, 0x21]⟩ = .error .payloadLength ∧
    decode ⟨0x00000000000000000002000000000003, [0xFF]⟩ = .error .payloadLength ∧
    decode ⟨0x0000000000000000FFFF000000000003, [0xFF]⟩ = .error .payloadLength ∧
    decode ⟨0x00000000000000000000000000000001, [0x00]⟩ = .error .payloadLength ∧
    decode ⟨0x00000000000000000002000000800021, [0x48]⟩ = .error .payloadLength := by decide

/-- V-ENC-1: the encoder gives the spec's words. -/
theorem test_encode :
    encode (.setPixel (-1) 5 true) = ⟨0x000000000000000000000005FFFF0102, []⟩ ∧
    encode (.blit [0xFF] 1 5 (-3)) = ⟨0x00000000000000000001FFFD00050003, [0xFF]⟩ ∧
    encode (.drawLine 0 0 10 10 1 false) = ⟨0x000000000001000A000A000000000010, []⟩ ∧
    encode (.drawText [0x48, 0x69] 0 0) = ⟨0x00000000000000000002000000000021, [0x48, 0x69]⟩ ∧
    encode (.drawCircle 32 32 (-1) true) = ⟨0x0000000000000000FFFF002000200117, []⟩ := by decide

/-- The host's numbering: the payload of `BLIT {FF 81}, 2, 0, 0` above the word's 128 bits (log 15). -/
theorem test_decodeTableWord :
    decodeTableWord 144 0x81FF00000000000000000002000000000003 = some (.blit [0xFF, 0x81] 2 0 0) ∧
    decodeTableWord 128 0x00000000000000000000000A00030102 = some (.setPixel 3 10 true) := by decide

/-! ### The textual form: the examples of R97 -/

theorem test_asmText :
    asmText (.setPixel 3 10 true) = "SETPIXEL 3, 10, 1".toList ∧
    asmText (.drawLine 0 0 10 0 1 true) = "DRAWLINE 0, 0, 10, 0, 1, 1".toList ∧
    asmText (.render 0 7) = "RENDER 0, 7".toList ∧
    asmText (.blit [0xFF, 0x81] 2 0 (-3)) =
      "BLIT ".toList ++ Char.ofNat 123 :: "FF 81".toList ++ Char.ofNat 125 :: ", 2, 0, -3".toList := by decide

/-! ### Instructions: one step each on a small state -/

/-- The machine after reset with every word of `FB` this value. -/
def filled (w : Word) : State := { State.reset with fb := frameOf fun _ => w }

/-- `FB` zero. -/
def blank : State := filled 0

/-- `FB` zero and a font that holds one glyph. -/
def withGlyph (c : Byte) (g : List Byte) : State :=
  { blank with font := fontOf fun k => if k / 8 = c.toNat then g.getD (k % 8) 0 else 0 }

/-- The outcome is a next state in which `ST` has this value and `FB` holds the words `ws` from column `base` on and
`other` everywhere else. -/
def shows (st : BitVec 32) (base : Nat) (ws : List Word) (other : Word) (o : Host.Outcome State Fault Refusal) : Bool :=
  match o with
  | .next t => decide (t.st = st) && decide (t.rs = .idle) && (List.range 128).all fun x =>
      Frame.word t.fb x == if base ≤ x then ws.getD (x - base) other else other
  | .fault _ => false
  | .refused _ => false

/-- V-CLR-1. -/
theorem test_clear : shows 0 0 [] 0 (exec .clear (filled 0xDEADBEEF)) = true := by decide +kernel
/-- V-PIX-2. -/
theorem test_setPixel_corner :
    shows 0 127 [0x8000000000000000] 0 (exec (.setPixel 127 63 true) blank) = true := by decide +kernel
/-- V-PIX-4. -/
theorem test_setPixel_clears : shows 0 3 [0xFFFFFFFFFFFFFBFF] 0xFFFFFFFFFFFFFFFF
    (exec (.setPixel 3 10 false) (filled 0xFFFFFFFFFFFFFFFF)) = true := by decide +kernel
/-- V-BLIT-2: no wrap at the right edge. -/
theorem test_blit_right_edge : shows 0 126 [0x1000000000000000, 0x2000000000000000] 0
    (exec (.blit [0x01, 0x02, 0x04, 0x08] 4 126 60) blank) = true := by decide +kernel
/-- V-BLIT-4: above the top edge. -/
theorem test_blit_top_edge : shows 0 5 [0x1F] 0 (exec (.blit [0xFF] 1 5 (-3)) blank) = true := by decide +kernel
/-- The words of these columns after the step. -/
def columns (xs : List Nat) (o : Host.Outcome State Fault Refusal) : Option (List Word) :=
  match o with
  | .next t => some (xs.map (Frame.word t.fb))
  | .fault _ => none
  | .refused _ => none

/-- V-REPL-1, its two payloads in one; two columns of zeros beside. -/
theorem test_replaceAll : columns [0, 1, 2, 127]
    (exec (.replaceAll ([0xEF, 0xCD, 0xAB, 0x89, 0x67, 0x45, 0x23, 0x01, 0x01, 0, 0, 0, 0, 0, 0, 0x80] ++
      List.replicate 1008 0)) (filled 0xFF)) = some [0x0123456789ABCDEF, 0x8000000000000001, 0, 0] := by
  decide +kernel
/-- V-LINE-3: steep, width 2. -/
theorem test_drawLine_steep :
    shows 0 0 [0x03, 0x0F, 0x3C, 0x30] 0 (exec (.drawLine 0 0 2 5 2 true) blank) = true := by decide +kernel
/-- V-LINE-5: the ends in the other order, downward. -/
theorem test_drawLine_downward :
    shows 0 0 [8, 8, 4, 4, 2, 2, 1, 1] 0 (exec (.drawLine 7 0 0 3 1 true) blank) = true := by decide +kernel
/-- V-HV-1. -/
theorem test_hline : shows 0 3 [0x20, 0x20, 0x20, 0x20, 0x20, 0x20, 0x20, 0x20] 0
    (exec (.hline 10 3 5 true) blank) = true := by decide +kernel
/-- V-HV-3. -/
theorem test_hline_off_panel : shows 0 0 [] 0 (exec (.hline 128 300 3 true) blank) = true := by decide +kernel
/-- V-HV-4. -/
theorem test_vline : shows 0 7 [0x3FC] 0 (exec (.vline 9 2 7 true) blank) = true := by decide +kernel
/-- V-HV-4. -/
theorem test_vline_clipped :
    shows 0 0 [0xFFFFFFFFFFFFFFFF] 0 (exec (.vline (-4) 70 0 true) blank) = true := by decide +kernel
/-- V-RECT-1. -/
theorem test_drawRect : shows 0 0 [0x7FF, 0x401, 0x401, 0x401, 0x401, 0x401, 0x401, 0x401, 0x401, 0x401, 0x7FF] 0
    (exec (.drawRect 10 10 0 0 true) blank) = true := by decide +kernel
/-- V-RECT-3. -/
theorem test_drawRect_clipped :
    shows 0 0 [0x4, 0x4, 0x7] 0 (exec (.drawRect (-2) (-2) 2 2 true) blank) = true := by decide +kernel
/-- V-RECT-4. -/
theorem test_fillRect : shows 0 2 [0xFFFFFFFFFFFFFFF1, 0xFFFFFFFFFFFFFFF1, 0xFFFFFFFFFFFFFFF1] 0xFFFFFFFFFFFFFFFF
    (exec (.fillRect 4 3 2 1 false) (filled 0xFFFFFFFFFFFFFFFF)) = true := by decide +kernel
/-- V-TRI-1. -/
theorem test_drawTri : shows 0 0 [0x03, 0x0D, 0x11, 0x0D, 0x03] 0
    (exec (.drawTri 2 4 0 0 4 0 true) blank) = true := by decide +kernel
/-- V-EQT-2. -/
theorem test_drawEqTri_negative_height : shows 0 4
    [0x004, 0x01C, 0x024, 0x044, 0x184, 0x204, 0x404, 0x204, 0x184, 0x044, 0x024, 0x01C, 0x004] 0
    (exec (.drawEqTri 10 10 (-8) 1 true) blank) = true := by decide +kernel
/-- V-EQT-4. -/
theorem test_drawEqTri_width_two : shows 0 4
    [0x300, 0x380, 0x3E0, 0x370, 0x318, 0x30E, 0x307, 0x307, 0x30E, 0x318, 0x370, 0x3E0, 0x380, 0x100] 0
    (exec (.drawEqTri 10 0 8 2 true) blank) = true := by decide +kernel
/-- V-CIRC-3. -/
theorem test_drawCircle : shows 0 2 [0x70, 0x88, 0x104, 0x104, 0x104, 0x88, 0x70] 0
    (exec (.drawCircle 5 5 3 true) blank) = true := by decide +kernel
/-- V-CIRC-5. -/
theorem test_drawCircle_clipped : shows 0 125 [0xC000000000000000, 0x2000000000000000, 0x2000000000000000] 0
    (exec (.drawCircle 127 63 2 true) blank) = true := by decide +kernel
/-- V-CIRC-4. -/
theorem test_fillCircle : shows 0 2 [0x70, 0xF8, 0x1FC, 0x1FC, 0x1FC, 0xF8, 0x70] 0
    (exec (.fillCircle 5 5 3 true) blank) = true := by decide +kernel
/-- V-CIRC-4: a negative radius. -/
theorem test_fillCircle_negative : shows 0 0 [] 0 (exec (.fillCircle 5 5 (-1) true) blank) = true := by decide +kernel
/-- V-CIRC-0. -/
theorem test_circleSteps : circleSteps 10 =
    [(0, 10), (1, 10), (2, 10), (3, 10), (4, 9), (5, 9), (6, 8), (7, 7)] := by decide
/-- V-SRC-12. -/
theorem test_eqTriHalfBase : [8, -8, 1, -1, 2, 3, 100, 32767, -32768].map eqTriHalfBase =
    [6, -6, 0, 0, 1, 2, 86, 28376, -28377] := by decide
/-- V-TXT-1. -/
theorem test_drawChar : shows 0 2 [0x7E00, 0x0900, 0x0900, 0x0900, 0x7E00] 0
    (exec (.drawChar 65 2 8) (withGlyph 65 [0x7E, 0x09, 0x09, 0x09, 0x7E])) = true := by decide +kernel
/-- V-TXT-2: clipped at the corner. -/
theorem test_drawChar_clipped : shows 0 0 [0x04, 0x08, 0x10, 0x20] 0
    (exec (.drawChar 0 (-4) (-2)) (withGlyph 0 [0x01, 0x02, 0x04, 0x08, 0x10, 0x20, 0x40, 0x80])) = true := by
  decide +kernel
/-- V-TXT-7: the character 0 is drawn, and the text goes on. -/
theorem test_drawText : shows 0 6 [0xFF] 0
    (exec (.drawText [0x41, 0x00, 0x41] 0 0) (withGlyph 0 [0xFF])) = true := by decide +kernel
/-- V-TXT-4: an empty text at a bad position. -/
theorem test_drawText_rejected : shows 1 0 [] 0 (exec (.drawText [] 0 56) blank) = true := by decide +kernel

/-- The transactions a run of so many steps has emitted, the record it left in `ST`, and `CUR`. -/
def sent (n : Nat) (s : State) : Option (List (List Byte) × BitVec 32 × BitVec 24) :=
  match stepN n s with
  | .next t => some (t.transactions, t.st, t.cur)
  | .fault _ => none
  | .refused _ => none

/-- A block that is about to accept one command, with these answers of the sink. -/
def offered (w : CommandWord) (answers : List SinkAnswer) : State :=
  { blank with commands := [⟨w, []⟩], answers := answers, st := 0x0000000F, cur := 0 }

/-- V-REN-6: `RENDER 2, 3`, the triad of page 2 taken in part. -/
theorem test_render_triad_refused : sent 2 (offered 0x00000000000000000000000300020030 [.took 0]) =
    some ([[0xB2, 0x00, 0x10]], 0x00000343, 0x1000B2) := by decide +kernel
/-- V-REN-6: `RENDER 2, 3`, answers 3, 129, 2: the triad of page 3 taken in part. -/
theorem test_render_second_page : (sent 4 (offered 0x00000000000000000000000300020030
    [.took 3, .took 129, .took 2])).map (fun r => (r.1.map List.length, r.2)) =
    some ([3, 129, 3], 0x00020363, 0x1000B3) := by decide +kernel
/-- V-REN-6: answers 3, FAIL. -/
theorem test_render_data_failed : (sent 3 (offered 0x00000000000000000000000300020030 [.took 3, .fail])).map
    (fun r => (r.1.map List.length, r.2)) = some ([3, 129], 0x01008153, 0x1000B2) := by decide +kernel
/-- V-REN-5. -/
theorem test_render_page_range : sent 1 (offered 0x00000000000000000000000800000030 []) =
    some ([], 0x00000002, 0) := by decide +kernel
/-- V-REN-3: `RENDER 1, 1` of a buffer with `FB[3] = 0x400`. -/
theorem test_render_data : dataFrame (frameOf fun x => if x = 3 then 0x400 else 0) 1 =
    [0x40, 0x00, 0x00, 0x00, 0x04] ++ List.replicate 124 0x00 := by decide +kernel
/-- V-SRC-10. -/
theorem test_triadBytes : triadBytes 127 7 = [0xB7, 0x0F, 0x17] ∧ triadBytes 37 3 = [0xB3, 0x05, 0x12] ∧
    triadBytes 16 1 = [0xB1, 0x00, 0x11] := by decide
/-- V-SRC-11. -/
theorem test_pageByte : (List.range 8).map (pageByte 0x0123456789ABCDEF) =
    [0xEF, 0xCD, 0xAB, 0x89, 0x67, 0x45, 0x23, 0x01] := by decide
/-- V-ENC-2: an illegal word completes `ILLEGAL` and leaves `FB`. -/
theorem test_step_illegal : shows 4 0 [] 0 (step (offered 0x00000000000000000000000000000005 [])) = true := by
  decide +kernel
/-- R34, R301: a reset while `RENDER` waits. -/
theorem test_step_reset : sent 1 { offered 0 [] with rs := .curWait 2 3, resetIn := true } =
    some ([], 0, Config.curReset 1) := by rfl
/-- A word placed by the host is what the next step runs. -/
theorem test_withFetchWord : shows 0 3 [0x400] 0
    (step (blank.withFetchWord 128 0x00000000000000000000000A00030102)) = true := by decide +kernel

/-! ### For every statement with hypotheses, a concrete state and operands that meet all of them

Each theorem is named after its statement. Where a statement's clauses have hypotheses of their own, the theorem meets
each of them at the ends of its range. -/

/-- The state of a `RENDER 2, 3` that waits for the answer to the triad of page 2. -/
def waitingTriad (answers : List SinkAnswer) : State :=
  { blank with
    rs := .curWait 2 3, cur := 0x1000B2, transactions := [[0xB2, 0x00, 0x10]], answers := answers, recordOwed := true }

/-- The state of a `RENDER 2, 3` that waits for the answer to the data frame of page 2 or 3. -/
def waitingData (p : Fin 8) (answers : List SinkAnswer) : State :=
  { blank with rs := .dataWait p 3, answers := answers, recordOwed := true }

theorem test_witness_ResetEventEndsWhateverRuns :
    (∀ rs : RunState, ({ blank with resetIn := true, rs := rs } : State).resetIn = true) ∧
    (∃ s : State, s.resetIn = true ∧ s.rs = .curWait 7 7) ∧ (∃ s : State, s.resetIn = true ∧ s.rs = .dataWait 0 7) ∧
    (∃ s : State, s.resetIn = true ∧ s.rs = .idle) ∧ ∃ s : State, s.resetIn = true ∧ s.rs = .exec :=
  ⟨fun _ => rfl, ⟨{ blank with resetIn := true, rs := .curWait 7 7 }, rfl, rfl⟩,
    ⟨{ blank with resetIn := true, rs := .dataWait 0 7 }, rfl, rfl⟩, ⟨{ blank with resetIn := true }, rfl, rfl⟩,
    ⟨{ blank with resetIn := true, rs := .exec }, rfl, rfl⟩⟩

theorem test_witness_AtMostOneRowMatchesAWord : ∃ (w : CommandWord) (r r' : OpcodeRow), r ∈ opcodeMap ∧ r' ∈ opcodeMap ∧
    w &&& r.mask = r.pattern ∧ w &&& r'.mask = r'.pattern :=
  ⟨0x00000000000000000000003F007F0102, ⟨.setPixel, 0x2, 0xFFFFFFFFFFFFFFFFFFFF00000000FEFF⟩,
    ⟨.setPixel, 0x2, 0xFFFFFFFFFFFFFFFFFFFF00000000FEFF⟩, by decide, by decide, by decide, by decide⟩

theorem test_witness_DecodeOfEncode : Instr.wf (.drawTri (-32768) 32767 0 (-1) 1 2 false) = true ∧
    Instr.wf (.blit [] (-32768) 0 0) = true ∧ Instr.wf (.drawText (List.replicate 255 0) 0 0) = true := by
  decide +kernel

theorem test_witness_EncodeOfDecode :
    decode ⟨0x0000000000000000FFFF7FFF80000003, []⟩ = .ok (.blit [] (-1) (-32768) 32767) := by decide

theorem test_witness_ReservedOpcodesCompleteIllegal :
    let s := offered 0x000000000000000000000000000000FF []
    s.resetIn = false ∧ s.rs = .idle ∧ s.commands = [⟨0xFF, []⟩] ∧ (opcodeField 0xFF).toNat ∉
      [0x01, 0x02, 0x03, 0x04, 0x10, 0x11, 0x12, 0x13, 0x14, 0x15, 0x16, 0x17, 0x18, 0x20, 0x21, 0x30] :=
  ⟨rfl, rfl, rfl, by decide⟩

theorem test_witness_IllegalCommandsChangeNothingButStatus :
    (let s := offered 0x00010000000000000000000A00030102 [];
      s.resetIn = false ∧ s.rs = .idle ∧ s.commands = [⟨0x00010000000000000000000A00030102, []⟩] ∧
        decode ⟨0x00010000000000000000000A00030102, []⟩ = .error .noRow) ∧
    decode ⟨0x00000000000000000000000000000004, List.replicate 1023 0⟩ = .error .payloadLength :=
  ⟨⟨rfl, rfl, rfl, by decide⟩, by decide +kernel⟩

theorem test_witness_StepRunsTheDecodedCommand :
    let s := offered 0x000000000000000000000000FFFF0102 []
    s.resetIn = false ∧ s.rs = .idle ∧ s.commands = [⟨0x000000000000000000000000FFFF0102, []⟩] ∧
      decode ⟨0x000000000000000000000000FFFF0102, []⟩ = .ok (.setPixel (-1) 0 true) :=
  ⟨rfl, rfl, rfl, by decide⟩

theorem test_witness_FetchedWordRunsNext :
    decodeTableWord 128 0x00000000000000000000000200050030 = some (.render 5 2) := by decide

theorem test_witness_OnlyAnIdleBlockAcceptsACommand :
    (∃ s t : State, step s = .next t ∧ s.rs ≠ .idle ∧ s.commands ≠ []) ∧
    (∃ s t : State, step s = .next t ∧ s.rs = .idle ∧ s.resetIn = false ∧ s.commands ≠ []) ∧
    ∃ s t : State, step s = .next t ∧ s.rs = .idle ∧ s.resetIn = false ∧ s.commands = [] :=
  ⟨⟨{ waitingTriad [] with commands := [⟨1, []⟩] }, _, rfl, by decide, by simp⟩,
    ⟨offered 1 [], _, rfl, rfl, rfl, by simp [offered]⟩,
    ⟨blank, _, step_of_idle_nil rfl rfl rfl, rfl, rfl, rfl⟩⟩

theorem test_witness_PlotChangesOnePixel :
    (∀ p ∈ ([(-1, 0), (128, 63), (0, -1), (127, 64)] : List Pixel), p.1 < 0 ∨ p.1 > 127 ∨ p.2 < 0 ∨ p.2 > 63) ∧
    ∀ p ∈ ([(0, 0), (127, 0), (0, 63), (127, 63)] : List Pixel), 0 ≤ p.1 ∧ p.1 ≤ 127 ∧ 0 ≤ p.2 ∧ p.2 ≤ 63 := by decide

theorem test_witness_BlitWordForm :
    ((-1 : Int) ≤ (0 : Nat) ∧ ((0 : Nat) : Int) < -1 + 3) ∧ (126 : Int) ≤ (127 : Nat) ∧ ((127 : Nat) : Int) < 126 + 4 ∧
    ¬ ((126 : Int) ≤ (125 : Nat) ∧ ((125 : Nat) : Int) < 126 + 4) ∧ ¬ ((0 : Int) ≤ (2 : Nat) ∧ ((2 : Nat) : Int) < 0 + 2) := by
  decide

theorem test_witness_ReplaceAllTakesThePayload : (List.replicate 1024 (0xFF : Byte)).length = 1024 ∧
    ([] : List Byte).length ≠ 1024 ∧
    (let s := offered (commandWord 0x04 false 0 0 0 0 0 0) [];
      s.resetIn = false ∧ s.rs = .idle ∧ s.commands = [⟨commandWord 0x04 false 0 0 0 0 0 0, []⟩]) :=
  ⟨List.length_replicate, by decide, rfl, rfl, rfl⟩

theorem test_witness_DrawLineOfWidthOnePlotsOnePixelPerMajorCoordinate :
    ((2 : Int) - 0).natAbs ≤ ((-5 : Int) - 0).natAbs ∧ min (0 : Int) (-5) ≤ -5 ∧ (-5 : Int) ≤ max 0 (-5) ∧
    ((2 : Int) - 0).natAbs < ((5 : Int) - 0).natAbs ∧ min (0 : Int) 5 ≤ 5 ∧ (5 : Int) ≤ max 0 5 := by decide

theorem test_witness_VlineWordForm :
    max (min (-4 : Int) 70) 0 ≤ min (max (-4) 70) 63 ∧ max (min (63 : Int) 63) 0 ≤ min (max 63 63) 63 ∧
    ¬ max (min (64 : Int) 99) 0 ≤ min (max 64 99) 63 ∧ ¬ max (min (-9 : Int) (-1)) 0 ≤ min (max (-9) (-1)) 63 := by decide

theorem test_witness_DrawRectPixelCount : ∀ x, x < 128 → Frame.word blank.fb x = 0 := by
  intro x hx
  simp [blank, filled, hx]

theorem test_witness_DrawEqTriDrawsItsThreeLines :
    (-6 : Int) = (if (-8 : Int) < 0 then -1 else 1) * ((((-8 : Int).natAbs * 1732 / 2000 : Nat)) : Int) := by decide

theorem test_witness_OctantWalkFollowsTheCircle : ((2, 3) : Pixel) ∉ circleSteps 3 ∧ (2, 2) ∈ circleSteps 3 ∧
    (0, 0) ∈ circleSteps 0 ∧ (3 + 1 : Int).toNat ≤ 9 := by decide

theorem test_witness_DiscHasNoHoles :
    (∀ x y : Nat, x < 128 → y < 64 → Frame.pixel blank.fb x y = !true) ∧
    (∀ x y : Nat, x < 128 → y < 64 → Frame.pixel (filled 0xFFFFFFFFFFFFFFFF).fb x y = !false) ∧
    shows 0 3 [0x70, 0x88, 0x88, 0x88, 0x70] 0 (exec (.drawCircle 5 5 2 true) blank) = true ∧
    shows 0 3 [0x70, 0xF8, 0xF8, 0xF8, 0x70] 0 (exec (.fillCircle 5 5 2 true) blank) = true ∧
    ((4 : Nat) - 5 : Int).natAbs ≤ ((6 : Nat) - 5 : Int).natAbs ∧ (((7 : Nat) - 5 : Int).natAbs : Int) ≤ 2 := by
  refine ⟨?_, ?_, by decide +kernel, by decide +kernel, by decide, by decide⟩
  · intro x y hx hy
    simp [blank, filled, hx]
  · intro x y hx hy
    have : ∀ k < 64, (0xFFFFFFFFFFFFFFFF : Word).getLsbD k = true := by decide
    simpa [filled, hx] using this y hy

theorem test_witness_DrawTextDrawsEveryCharacterOrRejectsTheText :
    (∀ p ∈ ([(0, 0), (127, 0), (0, 55), (127, 55)] : List Pixel), 0 ≤ p.1 ∧ p.1 ≤ 127 ∧ 0 ≤ p.2 ∧ p.2 ≤ 55) ∧
    ∀ p ∈ ([(-1, 0), (128, 0), (0, -1), (0, 56)] : List Pixel), p.1 < 0 ∨ p.1 > 127 ∨ p.2 < 0 ∨ p.2 > 55 := by decide

theorem test_witness_RenderChecksBothPages :
    ∀ p ∈ ([(-1, 0), (8, 0), (0, -1), (0, 8), (9, 2)] : List Pixel), p.1 < 0 ∨ p.1 > 7 ∨ p.2 < 0 ∨ p.2 > 7 := by decide

theorem test_witness_RenderOfAnEmptyRangeCompletesOk : (0 : Fin 8) < 7 ∧ (4 : Fin 8) < 5 := by decide

theorem test_witness_RenderEmitsTheFirstTriad : (0 : Fin 8) ≤ 7 ∧ (7 : Fin 8) ≤ 7 := by decide

theorem test_witness_TriadTakenSendsTheDataFrame :
    let s := waitingTriad [.took 3]
    s.resetIn = false ∧ s.rs = .curWait 2 3 ∧ s.answers = [.took 3] := ⟨rfl, rfl, rfl⟩

theorem test_witness_DataFrameTakenGoesOnOrCompletes :
    (let s := waitingData 2 [.took 129];
      s.resetIn = false ∧ s.rs = .dataWait 2 3 ∧ s.answers = [.took 129] ∧ (3 : Fin 8).val = (2 : Fin 8).val + 1 ∧
        (2 : Fin 8) < 3) ∧
    (let s := waitingData 3 [.took 129];
      s.resetIn = false ∧ s.rs = .dataWait 3 3 ∧ s.answers = [.took 129]) :=
  ⟨⟨rfl, rfl, rfl, rfl, by decide⟩, rfl, rfl, rfl⟩

theorem test_witness_WrongAnswerEndsWithSinkError :
    (let s := waitingTriad [.took 2];
      s.resetIn = false ∧ s.rs = (if false then RunState.dataWait 2 3 else .curWait 2 3) ∧ s.answers = [.took 2] ∧
        LegalAnswer 3 (.took 2) ∧ SinkAnswer.took 2 ≠ .took 3) ∧
    (let s := waitingData 2 [.fail];
      s.resetIn = false ∧ s.rs = (if true then RunState.dataWait 2 3 else .curWait 2 3) ∧ s.answers = [.fail] ∧
        LegalAnswer 129 .fail ∧ SinkAnswer.fail ≠ .took 129) :=
  ⟨⟨rfl, rfl, rfl, .inr ⟨2, by decide, rfl⟩, by decide⟩, rfl, rfl, rfl, .inl rfl, by decide⟩

theorem test_witness_RenderWaitsForASilentSink :
    ((waitingTriad []).resetIn = false ∧ (waitingTriad []).rs = .curWait 2 3 ∧ (waitingTriad []).answers = []) ∧
    (waitingData 3 []).resetIn = false ∧ (waitingData 3 []).rs = .dataWait 3 3 ∧ (waitingData 3 []).answers = [] :=
  ⟨⟨rfl, rfl, rfl⟩, rfl, rfl, rfl⟩

theorem test_witness_RenderWithAGoodSinkSendsEveryPage :
    let s := offered 0x00000000000000000000000300020030 (goodAnswers 2)
    (2 : Fin 8) ≤ 3 ∧ s.resetIn = false ∧ s.rs = .idle ∧ s.commands = [⟨0x00000000000000000000000300020030, []⟩] ∧
      decode ⟨0x00000000000000000000000300020030, []⟩ = .ok (.render (2 : Fin 8).val (3 : Fin 8).val) ∧
      s.answers = goodAnswers ((3 : Fin 8).val - (2 : Fin 8).val + 1) ++ [] :=
  ⟨by decide, rfl, rfl, rfl, by decide, rfl⟩

theorem test_witness_RenderStopsAtTheFirstWrongAnswer :
    let s := offered 0x00000000000000000000000300020030 [.took 3, .took 129, .took 2]
    (2 : Fin 8) ≤ 3 ∧ 2 < 2 * ((3 : Fin 8).val - (2 : Fin 8).val + 1) ∧ (3 : Fin 8).val = (2 : Fin 8).val + 2 / 2 ∧
      s.resetIn = false ∧ s.rs = .idle ∧ s.commands = [⟨0x00000000000000000000000300020030, []⟩] ∧
      decode ⟨0x00000000000000000000000300020030, []⟩ = .ok (.render (2 : Fin 8).val (3 : Fin 8).val) ∧
      s.answers = (goodAnswers ((3 : Fin 8).val - (2 : Fin 8).val + 1)).take 2 ++ SinkAnswer.took 2 :: [] ∧
      LegalAnswer (if 2 % 2 = 1 then 129 else 3) (.took 2) ∧ SinkAnswer.took 2 ≠ .took (if 2 % 2 = 1 then 129 else 3) :=
  ⟨by decide, by decide, by decide, rfl, rfl, rfl, by decide, rfl, .inr ⟨2, by decide, rfl⟩, by decide⟩

/-- The same with an odd transaction: the data frame of page 2 is the first one refused. -/
theorem test_witness_RenderStopsAtTheFirstWrongAnswer_data :
    let s := offered 0x00000000000000000000000300020030 [.took 3, .took 128]
    (2 : Fin 8) ≤ 3 ∧ 1 < 2 * ((3 : Fin 8).val - (2 : Fin 8).val + 1) ∧ (2 : Fin 8).val = (2 : Fin 8).val + 1 / 2 ∧
      s.resetIn = false ∧ s.rs = .idle ∧ s.commands = [⟨0x00000000000000000000000300020030, []⟩] ∧
      decode ⟨0x00000000000000000000000300020030, []⟩ = .ok (.render (2 : Fin 8).val (3 : Fin 8).val) ∧
      s.answers = (goodAnswers ((3 : Fin 8).val - (2 : Fin 8).val + 1)).take 1 ++ SinkAnswer.took 128 :: [] ∧
      LegalAnswer (if 1 % 2 = 1 then 129 else 3) (.took 128) ∧
      SinkAnswer.took 128 ≠ .took (if 1 % 2 = 1 then 129 else 3) :=
  ⟨by decide, by decide, by decide, rfl, rfl, rfl, by decide, rfl, .inr ⟨128, by decide, rfl⟩, by decide⟩

/-- That state meets the invariant. -/
theorem waitingTriad_inv (answers : List SinkAnswer) : Inv (waitingTriad answers) := by
  refine ⟨.inl rfl, by simp [waitingTriad, blank, filled, State.reset], rfl, ?_, ⟨rfl, by decide, rfl, rfl⟩⟩
  intro t ht
  simp only [waitingTriad, List.mem_singleton] at ht
  exact .inl ⟨2, by decide, by rw [ht]; decide⟩

theorem test_witness_EveryStepKeepsTheInvariant : ∃ t, Inv (waitingTriad [.took 3]) ∧
    step (waitingTriad [.took 3]) = .next t := ⟨_, waitingTriad_inv _, rfl⟩

theorem test_witness_OnlyDrawingCommandsChangeTheFrameBuffer :
    (∃ t, step (offered 0x00000000000000000000000A00030102 []) = .next t ∧
      t.fb ≠ (offered 0x00000000000000000000000A00030102 []).fb) ∧
    (∃ s t : State, exec (.render 0 7) s = .next t) ∧
    ∃ s t : State, s.resetIn = false ∧ s.rs = .curWait 2 3 ∧ step s = .next t := by
  refine ⟨⟨_, rfl, fun h => ?_⟩, ⟨blank, _, rfl⟩, waitingTriad [.fail], _, rfl, rfl, rfl⟩
  have := congrArg (fun fb => Frame.word fb 3) h
  revert this
  decide +kernel

theorem test_witness_PortsOnlyGrow : ∃ t, step (waitingData 2 [.took 129]) = .next t := ⟨_, rfl⟩

theorem test_witness_StatusAndCursorAreNeverRead : ∃ t, step (waitingTriad [.took 3]) = .next t := ⟨_, rfl⟩

theorem test_witness_StatusPortReadsOnlyWhileIdle : blank.rs = .idle ∧ (waitingTriad []).rs ≠ .idle ∧
    ∃ t, step (waitingTriad [.took 0]) = .next t ∧ t.completions ≠ (waitingTriad [.took 0]).completions :=
  ⟨rfl, by decide, _, rfl, by simp [triadAnswered, waitingTriad, triadLength]⟩

theorem test_witness_CommandsFoldInOrder :
    let cs : List Command := [⟨0x00000000000000000000000000000001, []⟩, ⟨0x00000000000000000000000A00030102, []⟩, ⟨5, []⟩]
    let s := { blank with commands := cs }
    s.resetIn = false ∧ s.rs = .idle ∧ s.commands = cs ++ [] ∧ ∀ c ∈ cs, NotRender c := by
  refine ⟨rfl, rfl, rfl, ?_⟩
  intro c hc p e
  simp only [List.mem_cons, List.not_mem_nil, or_false] at hc
  rcases hc with rfl | rfl | rfl
  · rw [test_decode_clear]; simp
  · rw [test_decode_setPixel]; simp
  · rw [show decode ⟨5, []⟩ = .error .noRow by decide]; simp

theorem test_witness_ClearMakesRunsIndependentOfThePast :
    let s := { blank with commands := [⟨0x00000000000000000000000000000001, []⟩, ⟨0x00000000000000000000000700000030, []⟩] }
    s.resetIn = false ∧ s.rs = .idle ∧
      s.commands = ⟨0x00000000000000000000000000000001, []⟩ :: [⟨0x00000000000000000000000700000030, []⟩] := ⟨rfl, rfl, rfl⟩

theorem test_witness_ReplaceAllThenRenderSendsThePayload :
    let s := { blank with
      commands := [⟨0x00000000000000000000000000000004, List.replicate 1024 0x5A⟩,
        ⟨0x00000000000000000000000700000030, []⟩]
      answers := goodAnswers 8 }
    (List.replicate 1024 (0x5A : Byte)).length = 1024 ∧ s.resetIn = false ∧ s.rs = .idle ∧
      s.commands = ⟨0x00000000000000000000000000000004, List.replicate 1024 0x5A⟩ ::
        ⟨0x00000000000000000000000700000030, []⟩ :: [] ∧ s.answers = goodAnswers 8 ++ [] :=
  ⟨List.length_replicate, rfl, rfl, rfl, (List.append_nil _).symm⟩

theorem test_witness_SetPixelIsSeenByRender :
    let w : Command := ⟨0x00000000000000000000003F007F0102, []⟩
    let r : Command := ⟨0x00000000000000000000000700070030, []⟩
    let s := { blank with commands := [w, r], answers := [.took 3, .took 129] }
    127 < 128 ∧ 63 < 64 ∧ s.resetIn = false ∧ s.rs = .idle ∧ s.commands = w :: r :: [] ∧
      decode w = .ok (.setPixel (127 : Nat) (63 : Nat) true) ∧
      decode r = .ok (.render (63 / 8 : Nat) (63 / 8 : Nat)) ∧ s.answers = .took 3 :: .took 129 :: [] ∧
      ∃ u t t' : State, exec (.setPixel (127 : Nat) (63 : Nat) true) u = .next t ∧
        exec (.setPixel (127 : Nat) (63 : Nat) true) t = .next t' :=
  ⟨by decide, by decide, rfl, rfl, rfl, by decide, by decide, rfl, blank, _, _, rfl, rfl⟩

theorem test_witness_RunEndsOnlyWithTheLastRecord :
    (∃ t, Inv (waitingTriad [.took 0]) ∧ step (waitingTriad [.took 0]) = .next t ∧ ¬ RunEnded (waitingTriad [.took 0]) ∧
      RunEnded t) ∧
    (∃ s t : State, Inv s ∧ s.rs = .curWait 2 3 ∧ s.resetIn = true ∧ step s = .next t) ∧
    ∃ t, RunEnded blank ∧ step blank = .next t := by
  refine ⟨⟨_, waitingTriad_inv _, rfl, by decide, rfl, rfl, rfl⟩,
    ⟨{ waitingTriad [] with resetIn := true }, _, ?_, rfl, rfl, rfl⟩, _, ⟨rfl, rfl, rfl⟩, rfl⟩
  obtain ⟨h1, h2, h3, h4, h5⟩ := waitingTriad_inv []
  exact ⟨h1, h2, h3, h4, h5⟩

/-- R311, R301: a reset ends the last command, a `RENDER`, without a record: the run has not ended. -/
theorem test_run_not_ended_by_reset :
    (match step { waitingTriad [] with resetIn := true } with
      | .next t => decide (t.rs = .idle ∧ t.commands = []) && !decide (RunEnded t) && (finalState t).isNone
      | .fault _ => false
      | .refused _ => false) = true := by decide

end Sys2Proof.Machine.Tests
end

section
/-! PROOFS. The state's rules (spec/10_state.md): what an instruction and an answer of the sink do to a state, as one of four
effects; then the statements about reset, the invariant, and what a step reads and changes. -/

namespace Sys2Proof.Machine

/-! ### The effects a step is made of -/

/-- What an instruction or an answer of the sink does to the state, the frame buffer it draws already computed. -/
inductive Effect where
  /-- Write the Frame Buffer and complete `OK`. -/
  | paint (fb : Frame)
  /-- End the command with this code. -/
  | finish (code : Completion)
  /-- Send the triad of a page and wait. -/
  | sendTriad (p endPage : Fin 8)
  /-- Send the data frame of a page and wait. -/
  | sendData (p endPage : Fin 8)

/-- The state an effect leaves. -/
def Effect.apply : Effect → State → State
  | .paint fb, s => completeOk { s with fb := fb }
  | .finish code, s => raise code s
  | .sendTriad p endPage, s => Machine.sendTriad p endPage s
  | .sendData p endPage, s => Machine.sendData p endPage s

@[simp] theorem Effect.apply_font (f : Effect) (s : State) : (f.apply s).font = s.font := by
  cases f <;> rfl

/-- An instruction reads nothing of the state but `FONT` and `FB`: with these given, it has one effect (R22, R26, R27). -/
theorem exec_effect (i : Instr) (font : FontTable) (fb : Frame) :
    ∃ f : Effect, ∀ s : State, s.font = font → s.fb = fb → exec i s = .next (f.apply s) := by
  cases i
  case drawText text x y =>
    by_cases hw : inTextWindow x y = true
    · refine ⟨.paint (plotAll true (textPixels font text x y) fb), ?_⟩
      rintro s rfl rfl
      simp only [exec, execDrawText, if_pos hw]; rfl
    · exact ⟨.finish .textRejected, fun s _ _ => by simp only [exec, execDrawText, if_neg hw]; rfl⟩
  case render v w =>
    cases hp : pageOf v with
    | none => exact ⟨.finish .pageRange, fun s _ _ => by simp only [exec, execRender, hp]; rfl⟩
    | some p =>
      cases he : pageOf w with
      | none => exact ⟨.finish .pageRange, fun s _ _ => by simp only [exec, execRender, hp, he]; rfl⟩
      | some e =>
        by_cases hpe : p ≤ e
        · exact ⟨.sendTriad p e, fun s _ _ => by simp only [exec, execRender, hp, he, if_pos hpe]; rfl⟩
        · exact ⟨.finish .ok, fun s _ _ => by simp only [exec, execRender, hp, he, if_neg hpe]; rfl⟩
  case drawChar c x y =>
    exact ⟨.paint (plotAll true (charPixels font c x y) fb), by rintro s rfl rfl; rfl⟩
  case clear => exact ⟨.paint _, by rintro s rfl rfl; rfl⟩
  case replaceAll bitmap64 => exact ⟨.paint _, by rintro s rfl rfl; rfl⟩
  all_goals exact ⟨.paint (plotAll _ _ fb), by rintro s rfl rfl; rfl⟩

/-- The latched command reads nothing else of the state either; an illegal one has the effect of its code (R92). -/
theorem runLatched_effect (c : Command) (font : FontTable) (fb : Frame) :
    ∃ f : Effect, ∀ s : State, s.latch = c → s.font = font → s.fb = fb → runLatched s = .next (f.apply s) := by
  cases hd : decode c with
  | error e => exact ⟨.finish .illegal, fun s hl _ _ => by simp only [runLatched, hl, hd]; rfl⟩
  | ok i =>
    obtain ⟨f, hf⟩ := exec_effect i font fb
    exact ⟨f, fun s hl hfont hfb => by simp only [runLatched, hl, hd, hf s hfont hfb]⟩

/-- What the answer to the triad of page `p` makes a waiting `RENDER` do (R209). -/
def triadEffect (p endPage : Fin 8) (a : SinkAnswer) : Effect :=
  if a = .took triadLength then .sendData p endPage else .finish (.sinkError .triad p triadLength a)

/-- What the answer to the data frame of page `p` makes a waiting `RENDER` do (R209). -/
def dataEffect (p endPage : Fin 8) (a : SinkAnswer) : Effect :=
  if a = .took dataFrameLength then
    if p < endPage then .sendTriad (p + 1) endPage else .finish .ok
  else .finish (.sinkError .data p dataFrameLength a)

/-- The step of a waiting `RENDER` whose answers have these effects: it uses the first answer, or waits (R209; log 8). -/
def answered (f : SinkAnswer → Effect) (s : State) : State :=
  match s.answers with
  | [] => s
  | a :: rest => (f a).apply { s with answers := rest }

theorem answered_nil {f : SinkAnswer → Effect} {s : State} (h : s.answers = []) : answered f s = s := by
  simp only [answered, h]

theorem answered_cons {f : SinkAnswer → Effect} {s : State} {a : SinkAnswer} {rest : List SinkAnswer}
    (h : s.answers = a :: rest) : answered f s = (f a).apply { s with answers := rest } := by
  simp only [answered, h]

/-- An answer has its effect, or there is none yet. -/
theorem answered_cases (f : SinkAnswer → Effect) (s : State) :
    answered f s = s ∨ ∃ a rest, s.answers = a :: rest ∧ answered f s = (f a).apply { s with answers := rest } := by
  cases ha : s.answers with
  | nil => exact .inl (answered_nil ha)
  | cons a rest => exact .inr ⟨a, rest, rfl, answered_cons ha⟩

/-- The step of `CUR_WAIT` has the effect of the answer to a triad. -/
theorem triadAnswered_eq (p e : Fin 8) (s : State) : triadAnswered p e s = answered (triadEffect p e) s := by
  cases ha : s.answers with
  | nil => simp only [triadAnswered, ha, answered_nil ha]
  | cons a rest =>
    simp only [triadAnswered, ha, answered_cons ha, triadEffect]
    split <;> rfl

/-- The step of `DATA_WAIT` has the effect of the answer to a data frame. -/
theorem dataAnswered_eq (p e : Fin 8) (s : State) : dataAnswered p e s = answered (dataEffect p e) s := by
  cases ha : s.answers with
  | nil => simp only [dataAnswered, ha, answered_nil ha]
  | cons a rest =>
    simp only [dataAnswered, ha, answered_cons ha, dataEffect]
    split
    · split <;> rfl
    · rfl

/-- A step of a block in `EXEC`. -/
theorem step_of_exec {s : State} (h : s.resetIn = false) (hr : s.rs = .exec) : step s = runLatched s := by
  simp [step, cycle, h, hr]

/-! ### Every state has a next state -/

/-- A latched command always ends in a next state: none faults, none is refused (R25, R57, R277). -/
theorem exists_runLatched (s : State) : ∃ t, runLatched s = .next t := by
  obtain ⟨f, hf⟩ := runLatched_effect s.latch s.font s.fb
  exact ⟨_, hf s rfl rfl rfl⟩

/-- Settles O12: reset and waiting are next states outright, and a command always runs to one. -/
theorem everyStepHasANextState : Obligations.EveryStepHasANextState := by
  intro s
  cases hi : s.resetIn with
  | true => exact ⟨_, step_of_resetIn hi⟩
  | false =>
    cases hr : s.rs with
    | idle =>
      cases hc : s.commands with
      | nil => exact ⟨_, step_of_idle_nil hi hr hc⟩
      | cons c rest => rw [step_of_idle_cons hi hr hc]; exact exists_runLatched _
    | exec => rw [step_of_exec hi hr]; exact exists_runLatched _
    | curWait p e => exact ⟨_, step_of_curWait hi hr⟩
    | dataWait p e => exact ⟨_, step_of_dataWait hi hr⟩

/-! ### The bytes of a page -/

/-- The bytes of R204, for the column 0 the serializer addresses. -/
theorem cursorTriad_eq (p : Fin 8) : cursorTriad p = [BitVec.ofNat 8 (0xB0 + p.val), 0x00, 0x10] := by
  revert p; decide

/-- `CUR` for the triad of a page (R30). -/
theorem curOf_cursorTriad (p : Fin 8) : curOf (cursorTriad p) = BitVec.ofNat 24 (0x1000B0 + p.val) := by
  revert p; decide

/-- A page byte by arithmetic (R52). -/
theorem pageByte_eq (w : Word) (p : Nat) : pageByte w p = BitVec.ofNat 8 (w.toNat / 2 ^ (8 * p) % 256) := by
  apply BitVec.eq_of_toNat_eq
  simp [pageByte, Nat.shiftRight_eq_div_pow]

/-- The bytes of R205. -/
theorem dataFrame_eq (fb : Frame) (p : Fin 8) : dataFrame fb p = 0x40 :: (List.range 128).map fun x =>
    BitVec.ofNat 8 ((Frame.word fb x).toNat / 2 ^ (8 * p.val) % 256) := by
  simp only [dataFrame, pageByte_eq, Config.ctrlData]

theorem legalTransaction_cursorTriad (p : Fin 8) : LegalTransaction (cursorTriad p) :=
  .inl ⟨p.val, by omega, cursorTriad_eq p⟩

theorem legalTransaction_dataFrame (fb : Frame) (p : Fin 8) : LegalTransaction (dataFrame fb p) :=
  .inr ⟨by simp [dataFrame], rfl⟩

/-! ### The invariant -/

/-- The record of a transaction refused is legal if it expects the length of its phase (R29, R208). -/
theorem legalRecord_sinkError {phase : Phase} {expected : Nat} (p : Fin 8) (a : SinkAnswer)
    (h : expected = if phaseField phase then dataFrameLength else triadLength) :
    LegalRecord (recordOf (.sinkError phase p expected a)) := by
  obtain ⟨hfail, hactual, hexpected, -, hphase, hcode, hreserved⟩ := fields_recordWord (failField a) (actualField a)
    (BitVec.ofNat 8 expected) (BitVec.ofNat 3 p.val) (phaseField phase) 3
  refine .inr (.inr (.inr (.inr ⟨hcode, hreserved, ?_, ?_⟩)))
  · show stExpected (recordWord ..) = if stPhase (recordWord ..) then 129 else 3
    rw [hexpected, hphase, h]
    cases phase <;> rfl
  · show stFail (recordWord ..) = true → stActual (recordWord ..) = 0
    rw [hfail, hactual]
    cases a <;> simp [failField, actualField]

/-- The part of the invariant that speaks of `ST` and the output ports only, which `RS` and the memories do not touch. -/
structure OutputsLegal (s : State) : Prop where
  /-- `ST` holds a legal record (R29, R94). -/
  status : LegalRecord s.st
  /-- Every record delivered is legal (R94). -/
  records : ∀ r ∈ s.completions, LegalRecord r
  /-- One record for each completed command (R21). -/
  count : s.index = s.completions.length
  /-- Every transaction emitted is legal (R95). -/
  sent : ∀ t ∈ s.transactions, LegalTransaction t

/-- The invariant is this and what `RS` says of the rest. -/
theorem inv_iff (s : State) : Inv s ↔ OutputsLegal s ∧ RunStateFits s :=
  ⟨fun ⟨h1, h2, h3, h4, h5⟩ => ⟨⟨h1, h2, h3, h4⟩, h5⟩, fun ⟨⟨h1, h2, h3, h4⟩, h5⟩ => ⟨h1, h2, h3, h4, h5⟩⟩

/-- States with the same `ST`, index and output ports satisfy it together. -/
theorem OutputsLegal.congr {s t : State} (h : OutputsLegal s) (hst : t.st = s.st) (hcomp : t.completions = s.completions)
    (hindex : t.index = s.index) (htrans : t.transactions = s.transactions) : OutputsLegal t :=
  ⟨hst ▸ h.status, hcomp ▸ h.records, hcomp ▸ hindex ▸ h.count, htrans ▸ h.sent⟩

/-- An idle block with legal outputs has the invariant. -/
theorem OutputsLegal.inv_of_idle {s : State} (h : OutputsLegal s) (hr : s.rs = .idle) : Inv s :=
  (inv_iff s).mpr ⟨h, by simp [RunStateFits, hr]⟩

/-- Handing over a legal transaction keeps the outputs legal. -/
theorem OutputsLegal.emit {s : State} (h : OutputsLegal s) {b : List Byte} (hb : LegalTransaction b) (w : RunState) :
    OutputsLegal (emit b w s) where
  status := h.status
  records := h.records
  count := h.count
  sent := by simpa [or_imp, forall_and] using ⟨h.sent, hb⟩

/-- Ending a command with a legal record leaves the invariant. -/
theorem OutputsLegal.inv_raise {s : State} (h : OutputsLegal s) {code : Completion} (hc : LegalRecord (recordOf code)) :
    Inv (raise code s) :=
  OutputsLegal.inv_of_idle ⟨hc, by simpa [or_imp, forall_and] using ⟨h.records, hc⟩, by simp [h.count], h.sent⟩ rfl

theorem OutputsLegal.inv_completeOk {s : State} (h : OutputsLegal s) : Inv (completeOk s) :=
  h.inv_raise (code := .ok) (.inl rfl)

/-- Sending a triad leaves the invariant, if the page is in its range and a record is owed. -/
theorem OutputsLegal.inv_sendTriad {s : State} {p e : Fin 8} (h : OutputsLegal s) (howed : s.recordOwed = true)
    (hpe : p ≤ e) : Inv (sendTriad p e s) := by
  have hout : OutputsLegal (sendTriad p e s) :=
    (h.congr rfl rfl rfl rfl : OutputsLegal { s with cur := curOf (cursorTriad p) }).emit
      (legalTransaction_cursorTriad p) (.curWait p e)
  exact (inv_iff _).mpr ⟨hout, howed, hpe, curOf_cursorTriad p, by simp [cursorTriad_eq]⟩

/-- Sending a data frame leaves the invariant, if moreover `CUR` is the page's triad. -/
theorem OutputsLegal.inv_sendData {s : State} {p e : Fin 8} (h : OutputsLegal s) (howed : s.recordOwed = true)
    (hpe : p ≤ e) (hcur : s.cur = BitVec.ofNat 24 (0x1000B0 + p.val)) : Inv (sendData p e s) :=
  (inv_iff _).mpr ⟨h.emit (legalTransaction_dataFrame s.fb p) _, howed, hpe, hcur, by simp [dataFrame_eq]⟩

/-- A command that runs with its record owed leaves the invariant, whether it is legal or not. -/
theorem OutputsLegal.inv_of_runLatched {s t : State} (h : OutputsLegal s) (howed : s.recordOwed = true)
    (hrun : runLatched s = .next t) : Inv t := by
  obtain ⟨rfl, -⟩ | ⟨i, -, hexec⟩ := runLatched_cases hrun
  · exact h.inv_raise (.inr (.inr (.inr (.inl rfl))))
  obtain ⟨fb', rfl⟩ | ⟨rfl, -⟩ | ⟨rfl, -⟩ | ⟨p, e, hpe, rfl, -⟩ := exec_cases hexec
  · exact (h.congr rfl rfl rfl rfl : OutputsLegal { s with fb := fb' }).inv_completeOk
  · exact h.inv_raise (.inr (.inl rfl))
  · exact h.inv_raise (.inr (.inr (.inl rfl)))
  · exact h.inv_sendTriad howed hpe

/-- The answer to a triad keeps the invariant (R209). -/
theorem Inv.triadAnswered {s : State} {p e : Fin 8} (h : Inv s) (hr : s.rs = .curWait p e) :
    Inv (triadAnswered p e s) := by
  obtain ⟨hout, hfits⟩ := (inv_iff s).mp h
  simp only [RunStateFits, hr] at hfits
  obtain ⟨howed, hpe, hcur, -⟩ := hfits
  rw [triadAnswered_eq]
  obtain heq | ⟨a, rest, -, heq⟩ := answered_cases (triadEffect p e) s <;> rw [heq]
  · exact h
  · have hout' : OutputsLegal { s with answers := rest } := hout.congr rfl rfl rfl rfl
    unfold triadEffect
    split
    · exact hout'.inv_sendData howed hpe hcur
    · exact hout'.inv_raise (legalRecord_sinkError p a rfl)

/-- The answer to a data frame keeps the invariant (R209). -/
theorem Inv.dataAnswered {s : State} {p e : Fin 8} (h : Inv s) (hr : s.rs = .dataWait p e) :
    Inv (dataAnswered p e s) := by
  obtain ⟨hout, hfits⟩ := (inv_iff s).mp h
  simp only [RunStateFits, hr] at hfits
  obtain ⟨howed, -⟩ := hfits
  rw [dataAnswered_eq]
  obtain heq | ⟨a, rest, -, heq⟩ := answered_cases (dataEffect p e) s <;> rw [heq]
  · exact h
  · have hout' : OutputsLegal { s with answers := rest } := hout.congr rfl rfl rfl rfl
    unfold dataEffect
    split
    · split
      · exact hout'.inv_sendTriad howed (Fin.add_one_le_of_lt ‹_›)
      · exact hout'.inv_completeOk
    · exact hout'.inv_raise (legalRecord_sinkError p a rfl)

/-- Settles O47: by the kinds of step, each ending in a record, a transaction or the state it began with. -/
theorem everyStepKeepsTheInvariant : Obligations.EveryStepKeepsTheInvariant := by
  intro s t h hstep
  obtain ⟨hout, hfits⟩ := (inv_iff s).mp h
  obtain ⟨-, rfl⟩ | ⟨-, -, -, rfl⟩ | ⟨-, -, c, rest, -, hrun⟩ | ⟨-, hr, -⟩ | ⟨-, p, e, hr, rfl⟩ | ⟨-, p, e, hr, rfl⟩ :=
    step_cases hstep
  · exact OutputsLegal.inv_of_idle ⟨.inl rfl, hout.records, hout.count, hout.sent⟩ rfl
  · exact h
  · exact (hout.congr rfl rfl rfl rfl : OutputsLegal (accept c rest s)).inv_of_runLatched rfl hrun
  · simp [RunStateFits, hr] at hfits
  · exact h.triadAnswered hr
  · exact h.dataAnswered hr

/-! ### Reset -/

/-- Settles O46: `ST` is 0, the ports are empty and the block is idle. -/
theorem invariantHoldsAtReset : Obligations.InvariantHoldsAtReset :=
  OutputsLegal.inv_of_idle ⟨.inl rfl, by simp [State.reset], rfl, by simp [State.reset]⟩ rfl

/-- Settles O1: the fields as State.reset gives them, `FONT` read through its flat address. -/
theorem resetIsIdleWithStatusZero : Obligations.ResetIsIdleWithStatusZero :=
  ⟨rfl, rfl, fun c i hi => fontByte_fontOf Config.font c i hi, rfl, rfl, rfl, rfl, rfl, rfl, rfl⟩

/-! ### What a step changes of the memories -/

/-- `RENDER` leaves `FB` in its first step, whichever way that ends (R64, R212). -/
theorem exec_render_fb {v w : Int} {s t : State} (h : exec (.render v w) s = .next t) : t.fb = s.fb := by
  simp only [exec, execRender] at h
  split at h
  · split at h <;> cases h <;> rfl
  · cases h; rfl

/-- A latched command that changes `FB` decodes to an instruction other than `RENDER` (R92, R212). -/
theorem drawing_of_runLatched_fb_ne {s t : State} (h : runLatched s = .next t) (hfb : t.fb ≠ s.fb) :
    ∃ i, decode s.latch = .ok i ∧ ∀ p e, i ≠ .render p e := by
  obtain ⟨rfl, -⟩ | ⟨i, hd, hexec⟩ := runLatched_cases h
  · exact absurd rfl hfb
  · refine ⟨i, hd, ?_⟩
    rintro p e rfl
    exact hfb (exec_render_fb hexec)

theorem runLatched_font {s t : State} (h : runLatched s = .next t) : t.font = s.font := by
  obtain ⟨f, hf⟩ := runLatched_effect s.latch s.font s.fb
  rw [hf s rfl rfl rfl] at h
  cases h
  exact f.apply_font s

@[simp] theorem answered_font (f : SinkAnswer → Effect) (s : State) : (answered f s).font = s.font := by
  obtain heq | ⟨a, rest, -, heq⟩ := answered_cases f s <;> rw [heq]
  exact (f a).apply_font _

/-- An answer whose effect leaves `FB` leaves it. -/
theorem answered_fb {f : SinkAnswer → Effect} (hf : ∀ a s, ((f a).apply s).fb = s.fb) (s : State) :
    (answered f s).fb = s.fb := by
  obtain heq | ⟨a, rest, -, heq⟩ := answered_cases f s <;> rw [heq]
  exact hf a _

@[simp] theorem triadAnswered_fb (p e : Fin 8) (s : State) : (triadAnswered p e s).fb = s.fb := by
  rw [triadAnswered_eq]
  refine answered_fb (fun a u => ?_) s
  unfold triadEffect
  split <;> rfl

@[simp] theorem dataAnswered_fb (p e : Fin 8) (s : State) : (dataAnswered p e s).fb = s.fb := by
  rw [dataAnswered_eq]
  refine answered_fb (fun a u => ?_) s
  unfold dataEffect
  split
  · split <;> rfl
  · rfl

/-- No step writes `FONT` (R27). -/
theorem step_font {s t : State} (h : step s = .next t) : t.font = s.font := by
  obtain ⟨-, rfl⟩ | ⟨-, -, -, rfl⟩ | ⟨-, -, c, rest, -, hrun⟩ | ⟨-, -, hrun⟩ | ⟨-, p, e, -, rfl⟩ | ⟨-, p, e, -, rfl⟩ :=
    step_cases h
  · rfl
  · rfl
  · exact (runLatched_font hrun :)
  · exact runLatched_font hrun
  · rw [triadAnswered_eq, answered_font]
  · rw [dataAnswered_eq, answered_font]

/-- A step that changes `FB` takes a reset or runs a command other than `RENDER` (R26, R212). -/
theorem drawing_of_step_fb_ne {s t : State} (h : step s = .next t) (hfb : t.fb ≠ s.fb) :
    s.resetIn = true ∨
    (s.resetIn = false ∧ ∃ c i, decode c = .ok i ∧ (∀ p e, i ≠ .render p e) ∧
      ((s.rs = .idle ∧ ∃ rest, s.commands = c :: rest) ∨ (s.rs = .exec ∧ s.latch = c))) := by
  obtain ⟨hi, -⟩ | ⟨-, -, -, rfl⟩ | ⟨hi, hr, c, rest, hc, hrun⟩ | ⟨hi, hr, hrun⟩ | ⟨-, p, e, -, rfl⟩ |
    ⟨-, p, e, -, rfl⟩ := step_cases h
  · exact .inl hi
  · exact absurd rfl hfb
  · obtain ⟨i, hd, hdraws⟩ := drawing_of_runLatched_fb_ne hrun hfb
    exact .inr ⟨hi, c, i, hd, hdraws, .inl ⟨hr, rest, hc⟩⟩
  · obtain ⟨i, hd, hdraws⟩ := drawing_of_runLatched_fb_ne hrun hfb
    exact .inr ⟨hi, s.latch, i, hd, hdraws, .inr ⟨hr, rfl⟩⟩
  · exact absurd (triadAnswered_fb p e s) hfb
  · exact absurd (dataAnswered_fb p e s) hfb

/-- A waiting `RENDER` leaves `FB` (R212). -/
theorem step_fb_of_waiting {p e : Fin 8} {s t : State} (hi : s.resetIn = false)
    (hr : s.rs = .curWait p e ∨ s.rs = .dataWait p e) (h : step s = .next t) : t.fb = s.fb := by
  obtain hr | hr := hr
  · rw [step_of_curWait hi hr] at h
    cases h; exact triadAnswered_fb p e s
  · rw [step_of_dataWait hi hr] at h
    cases h; exact dataAnswered_fb p e s

/-- Settles O48: its four clauses, from what each kind of step does to the memories. -/
theorem onlyDrawingCommandsChangeTheFrameBuffer : Obligations.OnlyDrawingCommandsChangeTheFrameBuffer :=
  ⟨fun _ _ => drawing_of_step_fb_ne, fun _ _ _ _ => exec_render_fb, fun _ _ _ _ => step_fb_of_waiting,
    fun _ _ => step_font⟩

/-! ### What a step reads -/

/-- The state with other values in `ST` and `CUR`. -/
def State.withStatus (st : BitVec 32) (cur : BitVec 24) (s : State) : State := { s with st := st, cur := cur }

/-- From `s` to `t` and from `s` with other values in `ST` and `CUR` to `t'` the same was done: `t'` is `t` but for these two,
and each of them either was written, the same value in both, or is what it was before. -/
structure AgreeAfter (s : State) (st' : BitVec 32) (cur' : BitVec 24) (t t' : State) : Prop where
  others : t'.withStatus t.st t.cur = t
  st : t'.st = t.st ∨ (t'.st = st' ∧ t.st = s.st)
  cur : t'.cur = t.cur ∨ (t'.cur = cur' ∧ t.cur = s.cur)

/-- What else the first state holds does not matter. -/
theorem AgreeAfter.congr {u s t t' : State} {st' : BitVec 32} {cur' : BitVec 24} (h : AgreeAfter u st' cur' t t')
    (hst : u.st = s.st) (hcur : u.cur = s.cur) : AgreeAfter s st' cur' t t' :=
  ⟨h.others, hst ▸ h.st, hcur ▸ h.cur⟩

section
variable (s : State) (st' : BitVec 32) (cur' : BitVec 24)

theorem agreeAfter_refl : AgreeAfter s st' cur' s (s.withStatus st' cur') :=
  ⟨rfl, .inr ⟨rfl, rfl⟩, .inr ⟨rfl, rfl⟩⟩

/-- An effect writes `ST` or `CUR` with what does not depend on them. -/
theorem agreeAfter_apply (f : Effect) : AgreeAfter s st' cur' (f.apply s) (f.apply (s.withStatus st' cur')) := by
  cases f with
  | paint fb => exact ⟨rfl, .inl rfl, .inr ⟨rfl, rfl⟩⟩
  | finish code => exact ⟨rfl, .inl rfl, .inr ⟨rfl, rfl⟩⟩
  | sendTriad p e => exact ⟨rfl, .inr ⟨rfl, rfl⟩, .inl rfl⟩
  | sendData p e => exact ⟨rfl, .inr ⟨rfl, rfl⟩, .inr ⟨rfl, rfl⟩⟩

/-- A waiting `RENDER` reads neither `ST` nor `CUR` (R209). -/
theorem agreeAfter_answered (f : SinkAnswer → Effect) :
    AgreeAfter s st' cur' (answered f s) (answered f (s.withStatus st' cur')) := by
  cases ha : s.answers with
  | nil =>
    rw [answered_nil ha, answered_nil (s := s.withStatus st' cur') ha]
    exact agreeAfter_refl s st' cur'
  | cons a rest =>
    rw [answered_cons ha, answered_cons (s := s.withStatus st' cur') ha]
    exact (agreeAfter_apply { s with answers := rest } st' cur' (f a)).congr rfl rfl

/-- A latched command reads neither `ST` nor `CUR` (R22). -/
theorem agreeAfter_runLatched {t : State} (h : runLatched s = .next t) :
    ∃ t', runLatched (s.withStatus st' cur') = .next t' ∧ AgreeAfter s st' cur' t t' := by
  obtain ⟨f, hf⟩ := runLatched_effect s.latch s.font s.fb
  rw [hf s rfl rfl rfl] at h
  cases h
  exact ⟨_, hf _ rfl rfl rfl, agreeAfter_apply s st' cur' f⟩

/-- No step reads `ST` or `CUR` (R22, R29, R30). -/
theorem agreeAfter_step {t : State} (h : step s = .next t) :
    ∃ t', step (s.withStatus st' cur') = .next t' ∧ AgreeAfter s st' cur' t t' := by
  obtain ⟨hi, rfl⟩ | ⟨hi, hr, hc, rfl⟩ | ⟨hi, hr, c, rest, hc, hrun⟩ | ⟨hi, hr, hrun⟩ | ⟨hi, p, e, hr, rfl⟩ |
    ⟨hi, p, e, hr, rfl⟩ := step_cases h
  · exact ⟨_, step_of_resetIn hi, rfl, .inl rfl, .inl rfl⟩
  · exact ⟨_, step_of_idle_nil hi hr hc, agreeAfter_refl _ st' cur'⟩
  · obtain ⟨t', hrun', hagree⟩ := agreeAfter_runLatched (accept c rest s) st' cur' hrun
    exact ⟨t', (step_of_idle_cons (s := s.withStatus st' cur') hi hr hc).trans hrun', hagree.congr rfl rfl⟩
  · obtain ⟨t', hrun', hagree⟩ := agreeAfter_runLatched s st' cur' hrun
    exact ⟨t', (step_of_exec (s := s.withStatus st' cur') hi hr).trans hrun', hagree⟩
  · refine ⟨_, step_of_curWait hi hr, ?_⟩
    rw [triadAnswered_eq, triadAnswered_eq]
    exact agreeAfter_answered s st' cur' _
  · refine ⟨_, step_of_dataWait hi hr, ?_⟩
    rw [dataAnswered_eq, dataAnswered_eq]
    exact agreeAfter_answered s st' cur' _

end

/-- Settles O50: by the kinds of step, none of which reads the two registers. -/
theorem statusAndCursorAreNeverRead : Obligations.StatusAndCursorAreNeverRead := by
  intro s t st' cur' h
  obtain ⟨t', hstep, hothers, hst, hcur⟩ := agreeAfter_step s st' cur' h
  exact ⟨t', hstep, hothers, hst, hcur⟩

/-! ### Runs after CLEAR -/

/-- From states that differ in `CUR` only, a step leads to states that differ in `CUR` only. -/
theorem step_with_cur {s t : State} (cur' : BitVec 24) (h : step s = .next t) :
    ∃ cur'', step { s with cur := cur' } = .next { t with cur := cur'' } := by
  obtain ⟨t', hstep, hothers, hst, -⟩ := agreeAfter_step s s.st cur' h
  have hst' : t'.st = t.st := hst.elim id fun ⟨h1, h2⟩ => h1.trans h2.symm
  rw [← hst'] at hothers
  exact ⟨t'.cur, hstep.trans (hothers ▸ rfl)⟩

/-- The same for a run of any length, which never stops. -/
theorem stepN_with_cur (k : Nat) (s : State) (cur' : BitVec 24) :
    ∃ t cur'', stepN k s = .next t ∧ stepN k { s with cur := cur' } = .next { t with cur := cur'' } := by
  induction k generalizing s cur' with
  | zero => exact ⟨s, cur', rfl, rfl⟩
  | succ k ih =>
    obtain ⟨t, hstep⟩ := everyStepHasANextState s
    obtain ⟨cur'', hstep'⟩ := step_with_cur cur' hstep
    rw [stepN_succ hstep, stepN_succ hstep']
    exact ih t cur''

/-- The step of an idle block that is offered `CLEAR` (R120). -/
theorem step_clear {s : State} {rest : List Command} (hi : s.resetIn = false) (hr : s.rs = .idle)
    (hc : s.commands = ⟨0x00000000000000000000000000000001, []⟩ :: rest) :
    step s = .next (completeOk { accept ⟨0x00000000000000000000000000000001, []⟩ rest s with fb := frameOf fun _ => 0 }) := by
  have hd : decode ⟨0x00000000000000000000000000000001, []⟩ = .ok .clear := by decide
  rw [step_of_idle_cons hi hr hc]
  simp only [runLatched, accept_latch, hd]
  rfl

/-- Settles O53: `CLEAR` overwrites `FB`, `ST` and the latch, so the runs then differ in `CUR` only, which no step reads. -/
theorem clearMakesRunsIndependentOfThePast : Obligations.ClearMakesRunsIndependentOfThePast := by
  intro s fb' st' cur' latch' rest k hi hr hc
  have hclear' := step_clear (s := { s with fb := fb', st := st', cur := cur', latch := latch' }) hi hr hc
  rw [stepN_succ (step_clear hi hr hc), stepN_succ hclear']
  obtain ⟨t, cur'', ht, ht'⟩ := stepN_with_cur k _ cur'
  exact ⟨t, { t with cur := cur'' }, ht, ht', rfl, rfl, rfl, rfl, rfl, rfl⟩

end Sys2Proof.Machine
end

section
/-! PROOFS. The Frame Buffer as a memory between commands (spec/20_memory.md): what a step adds to the output ports, what a list
of commands leaves in `FB`, and `RENDER` reading back what `REPLACEALL` wrote. -/

namespace Sys2Proof.Machine

/-! ### What a step adds to the ports -/

/-- The output ports of `t` are those of `s` with nothing, one record or one transaction more: the three ways of R63, R81, R94. -/
inductive PortsGrow (s t : State) : Prop where
  /-- Neither port changed, nor the index. -/
  | same (htrans : t.transactions = s.transactions) (hcomp : t.completions = s.completions) (hindex : t.index = s.index)
  /-- A command ended: its record is what `ST` holds (R21, R94). -/
  | record (htrans : t.transactions = s.transactions) (hcomp : t.completions = s.completions ++ [t.st])
      (hindex : t.index = s.index + 1) (hr : t.rs = .idle)
  /-- A `RENDER` handed a transaction to the sink and waits (R203, R209). -/
  | transaction (b : List Byte) (p e : Fin 8) (hcomp : t.completions = s.completions) (hindex : t.index = s.index)
      (hst : t.st = s.st) (htrans : t.transactions = s.transactions ++ [b]) (hr : t.rs = .curWait p e ∨ t.rs = .dataWait p e)

/-- What the first state holds besides `ST`, the index and the output ports does not matter. -/
theorem PortsGrow.congr {u s t : State} (h : PortsGrow u t) (hst : u.st = s.st) (hindex : u.index = s.index)
    (hcomp : u.completions = s.completions) (htrans : u.transactions = s.transactions) : PortsGrow s t := by
  cases h with
  | same h1 h2 h3 => exact .same (h1.trans htrans) (h2.trans hcomp) (h3.trans hindex)
  | record h1 h2 h3 hr => exact .record (htrans ▸ h1) (hcomp ▸ h2) (hindex ▸ h3) hr
  | transaction b p e h1 h2 h3 h4 hr =>
    exact .transaction b p e (h1.trans hcomp) (h2.trans hindex) (h3.trans hst) (htrans ▸ h4) hr

/-- Each effect ends a command or hands over a transaction. -/
theorem portsGrow_apply (f : Effect) (s : State) : PortsGrow s (f.apply s) := by
  cases f with
  | paint fb => exact .record rfl rfl rfl rfl
  | finish code => exact .record rfl rfl rfl rfl
  | sendTriad p e => exact .transaction _ p e rfl rfl rfl rfl (.inl rfl)
  | sendData p e => exact .transaction _ p e rfl rfl rfl rfl (.inr rfl)

theorem portsGrow_runLatched {s t : State} (h : runLatched s = .next t) : PortsGrow s t := by
  obtain ⟨f, hf⟩ := runLatched_effect s.latch s.font s.fb
  rw [hf s rfl rfl rfl] at h
  cases h
  exact portsGrow_apply f s

theorem portsGrow_answered (f : SinkAnswer → Effect) (s : State) : PortsGrow s (answered f s) := by
  obtain heq | ⟨a, rest, -, heq⟩ := answered_cases f s <;> rw [heq]
  · exact .same rfl rfl rfl
  · exact (portsGrow_apply (f a) { s with answers := rest }).congr rfl rfl rfl rfl

/-- No step takes anything back from the output ports (R63, R81, R94). -/
theorem portsGrow_step {s t : State} (h : step s = .next t) : PortsGrow s t := by
  obtain ⟨-, rfl⟩ | ⟨-, -, -, rfl⟩ | ⟨-, -, c, rest, -, hrun⟩ | ⟨-, -, hrun⟩ | ⟨-, p, e, -, rfl⟩ | ⟨-, p, e, -, rfl⟩ :=
    step_cases h
  · exact .same rfl rfl rfl
  · exact .same rfl rfl rfl
  · exact (portsGrow_runLatched hrun).congr rfl rfl rfl rfl
  · exact portsGrow_runLatched hrun
  · rw [triadAnswered_eq]; exact portsGrow_answered _ s
  · rw [dataAnswered_eq]; exact portsGrow_answered _ s

/-- Settles O49: a step is a reset, a wait or one effect, and an effect adds one record or one transaction. -/
theorem portsOnlyGrow : Obligations.PortsOnlyGrow := by
  intro s t h
  cases portsGrow_step h with
  | same htrans hcomp hindex => exact .inl ⟨htrans, hcomp, hindex⟩
  | record htrans hcomp hindex hr => exact .inr (.inl ⟨htrans, t.st, hcomp, hindex, hr, rfl⟩)
  | transaction b p e hcomp hindex hst htrans hr => exact .inr (.inr ⟨hcomp, hindex, hst, b, htrans, p, e, hr⟩)

/-! ### A list of commands without RENDER -/

/-- `frameAfter` is the Frame Buffer `exec` leaves, in whatever state it runs: an instruction's effect depends on `FB` and
`FONT` alone (R61). -/
theorem frameAfter_eq {i : Instr} {s t : State} (h : exec i s = .next t) : frameAfter s.font i s.fb = t.fb := by
  obtain ⟨f, hf⟩ := exec_effect i s.font s.fb
  rw [hf s rfl rfl] at h
  cases h
  simp only [frameAfter, hf { State.reset with fb := s.fb, font := s.font } rfl rfl]
  cases f <;> rfl

/-- A latched command other than `RENDER` writes what `frameAfterCommand` says and ends with one record (R61, R92). -/
theorem runLatched_of_notRender {s : State} (h : NotRender s.latch) : ∃ record, runLatched s =
    .next (deliver record { s with fb := frameAfterCommand s.font s.latch s.fb }) := by
  obtain ⟨t, ht⟩ := exists_runLatched s
  obtain ⟨rfl, e, hd⟩ | ⟨i, hd, hexec⟩ := runLatched_cases ht
  · exact ⟨recordOf .illegal, by simp only [ht, frameAfterCommand, hd]; rfl⟩
  have hfb : frameAfterCommand s.font s.latch s.fb = t.fb := by
    simp only [frameAfterCommand, hd, frameAfter_eq hexec]
  rw [ht, hfb]
  obtain ⟨fb', rfl⟩ | ⟨rfl, -⟩ | ⟨-, p, e, rfl⟩ | ⟨-, -, -, -, v, w, rfl, -⟩ := exec_cases hexec
  · exact ⟨recordOf .ok, rfl⟩
  · exact ⟨recordOf .textRejected, rfl⟩
  · exact absurd hd (h p e)
  · exact absurd hd (h v w)

/-- The step in which an idle block takes a command other than `RENDER` (R61, R81; log 7). -/
theorem step_of_notRender {s : State} {c : Command} {rest : List Command} (hi : s.resetIn = false) (hr : s.rs = .idle)
    (hc : s.commands = c :: rest) (hn : NotRender c) : ∃ record, step s =
      .next (deliver record { accept c rest s with fb := frameAfterCommand s.font c s.fb }) := by
  rw [step_of_idle_cons hi hr hc]
  exact runLatched_of_notRender (s := accept c rest s) hn

/-- From `s` to `t` the block ran the commands `cs`, each to its record, with `rest` still to come (R61). -/
structure Folded (cs rest : List Command) (s t : State) : Prop where
  rs : t.rs = .idle
  commands : t.commands = rest
  /-- The last of the commands delivered its record; without one the mark is as before (R311; log 18). -/
  recordOwed : t.recordOwed = (cs.isEmpty && s.recordOwed)
  index : t.index = s.index + cs.length
  completions : t.completions.length = s.completions.length + cs.length
  transactions : t.transactions = s.transactions
  font : t.font = s.font
  fb : t.fb = cs.foldl (fun fb c => frameAfterCommand s.font c fb) s.fb

/-- One command and then the others. -/
theorem Folded.cons {c : Command} {cs rest : List Command} {s t : State} {record : BitVec 32}
    (h : Folded cs rest (deliver record { accept c (cs ++ rest) s with fb := frameAfterCommand s.font c s.fb }) t) :
    Folded (c :: cs) rest s t where
  rs := h.rs
  commands := h.commands
  recordOwed := h.recordOwed.trans (Bool.and_false _)
  index := by simpa [Nat.add_assoc, Nat.add_comm 1] using h.index
  completions := by simpa [Nat.add_assoc, Nat.add_comm 1] using h.completions
  transactions := h.transactions
  font := h.font
  fb := h.fb

/-- A list of commands without `RENDER` runs in one step each (R61; log 7). -/
theorem exists_stepN_folded (cs rest : List Command) (s : State) (hi : s.resetIn = false) (hr : s.rs = .idle)
    (hc : s.commands = cs ++ rest) (hn : ∀ c ∈ cs, NotRender c) :
    ∃ t, stepN cs.length s = .next t ∧ Folded cs rest s t := by
  induction cs generalizing s with
  | nil => exact ⟨s, rfl, hr, hc, rfl, rfl, rfl, rfl, rfl, rfl⟩
  | cons c cs ih =>
    obtain ⟨hnc, hncs⟩ := List.forall_mem_cons.mp hn
    obtain ⟨record, hstep⟩ := step_of_notRender hi hr hc hnc
    obtain ⟨t, hrun, hfold⟩ := ih (deliver record { accept c (cs ++ rest) s with fb := _ }) hi rfl rfl hncs
    exact ⟨t, (stepN_succ hstep).trans hrun, hfold.cons⟩

/-- Settles O52, by induction on the list, one step for each command. -/
theorem commandsFoldInOrder : Obligations.CommandsFoldInOrder := by
  intro cs rest s hi hr hc hn
  obtain ⟨t, hrun, h⟩ := exists_stepN_folded cs rest s hi hr hc hn
  refine ⟨t, hrun, h.rs, h.commands, fun hrest hne => ⟨h.rs, h.commands.trans hrest, ?_⟩, h.index, h.completions,
    h.transactions, h.font, h.fb⟩
  rw [h.recordOwed, List.isEmpty_eq_false_iff.mpr hne, Bool.false_and]

/-! ### The bytes of a payload -/

/-- A byte placed at byte `k` of a word: its bits are there, and no others (R54). -/
theorem getLsbD_byte_shiftLeft (b : Byte) (k y : Nat) (hy : y < 64) :
    (b.setWidth 64 <<< (8 * k)).getLsbD y = (decide (y / 8 = k) && b.getLsbD (y % 8)) := by
  rw [BitVec.getLsbD_shiftLeft, BitVec.getLsbD_setWidth]
  by_cases hk : y / 8 = k
  · have hy8 : y - 8 * k = y % 8 := by omega
    have hle : ¬ y < 8 * k := by omega
    have h64 : y % 8 < 64 := by omega
    simp [hk, hy, hy8, hle, h64]
  · by_cases hlt : y < 8 * k
    · simp [hk, hlt]
    · simp [hk, BitVec.getLsbD_of_ge b (y - 8 * k) (by omega)]

/-- Bit `y` of a payload word is bit `y mod 8` of its byte `y div 8` (R54, R126). -/
theorem getLsbD_payloadWord (pl : List Byte) (x y : Nat) (hy : y < 64) :
    (payloadWord pl x).getLsbD y = (byteAt pl (8 * x + y / 8)).getLsbD (y % 8) := by
  have hbyte := fun k => getLsbD_byte_shiftLeft (byteAt pl (8 * x + k)) k y hy
  have hk : y / 8 < 8 := by omega
  simp only [payloadWord, BitVec.getLsbD_or]
  have h0 := hbyte 0
  rw [Nat.mul_zero, BitVec.shiftLeft_zero] at h0
  rw [h0, hbyte 1, hbyte 2, hbyte 3, hbyte 4, hbyte 5, hbyte 6, hbyte 7]
  generalize y / 8 = k at hk
  interval_cases k <;> simp

/-- Page `p` of a payload word is its byte `p` (R52, R54). -/
theorem pageByte_payloadWord (pl : List Byte) (x : Nat) {p : Nat} (hp : p < 8) :
    pageByte (payloadWord pl x) p = byteAt pl (8 * x + p) := by
  apply BitVec.eq_of_getLsbD_eq
  intro i hi
  have hdiv : (8 * p + i) / 8 = p := by omega
  have hmod : (8 * p + i) % 8 = i := by omega
  simp [pageByte, hi, getLsbD_payloadWord pl x (8 * p + i) (by omega), hdiv, hmod]

/-- After `REPLACEALL` the data frame of page `p` carries byte `8x + p` of the payload for column `x` (R205). -/
theorem dataFrame_frameOf_payloadWord (pl : List Byte) (p : Fin 8) : dataFrame (frameOf (payloadWord pl)) p =
    0x40 :: (List.range 128).map fun x => byteAt pl (8 * x + p.val) := by
  refine congrArg (0x40#8 :: ·) (List.map_congr_left fun x hx => ?_)
  rw [word_frameOf, if_pos (List.mem_range.mp hx), pageByte_payloadWord pl x p.isLt]

/-! ### A whole RENDER with a good sink -/

/-- The transactions of a page are its triad and its data frame (R204, R205). -/
theorem pageTransactions_eq (fb : Frame) (p : Fin 8) : pageTransactions fb p = [cursorTriad p, dataFrame fb p] := by
  rw [cursorTriad_eq, dataFrame_eq]; rfl

theorem renderTransactions_self (fb : Frame) (p : Fin 8) : renderTransactions fb p p = pageTransactions fb p := by
  have hrange : pageRange p p = [p] := by revert p; decide
  simp [renderTransactions, hrange]

/-- The transactions of a range are those of its first page and then those of the others (R207). -/
theorem renderTransactions_of_lt (fb : Frame) {p e : Fin 8} (h : p < e) :
    renderTransactions fb p e = pageTransactions fb p ++ renderTransactions fb (p + 1) e := by
  have hrange : pageRange p e = p :: pageRange (p + 1) e := by revert p e; decide
  simp [renderTransactions, hrange]

/-- The answer 3 to a triad sends the data frame (R209). -/
theorem step_triadTaken {p e : Fin 8} {s : State} {more : List SinkAnswer} (hi : s.resetIn = false)
    (hr : s.rs = .curWait p e) (ha : s.answers = .took 3 :: more) :
    step s = .next (sendData p e { s with answers := more }) := by
  rw [step_of_curWait hi hr, triadAnswered_eq, answered_cons ha]; rfl

/-- The answer 129 to a data frame that is not the last sends the next triad (R209). -/
theorem step_dataTaken_of_lt {p e : Fin 8} {s : State} {more : List SinkAnswer} (hi : s.resetIn = false)
    (hr : s.rs = .dataWait p e) (ha : s.answers = .took 129 :: more) (hpe : p < e) :
    step s = .next (sendTriad (p + 1) e { s with answers := more }) := by
  rw [step_of_dataWait hi hr, dataAnswered_eq, answered_cons ha, dataEffect, dataFrameLength, if_pos rfl, if_pos hpe]; rfl

/-- The answer 129 to the last data frame completes `OK` (R209). -/
theorem step_dataTaken_last {e : Fin 8} {s : State} {more : List SinkAnswer} (hi : s.resetIn = false)
    (hr : s.rs = .dataWait e e) (ha : s.answers = .took 129 :: more) :
    step s = .next (completeOk { s with answers := more }) := by
  rw [step_of_dataWait hi hr, dataAnswered_eq, answered_cons ha, dataEffect, dataFrameLength, if_pos rfl,
    if_neg (lt_irrefl e)]
  rfl

/-- What the sink taking both transactions of page `p` leaves, from the state before its triad: they are emitted, `CUR` names
the page, and the answers are `more` (R204, R205, R209). -/
def pageSent (p : Fin 8) (more : List SinkAnswer) (s : State) : State :=
  { s with
    answers := more
    cur := curOf (cursorTriad p)
    transactions := s.transactions ++ pageTransactions s.fb p }

/-- The two steps of a page that is not the last lead to the triad of the next one (R209). -/
theorem stepN_sendTriad_of_lt {p e : Fin 8} {s : State} {more : List SinkAnswer} (hpe : p < e) (hi : s.resetIn = false)
    (ha : s.answers = .took 3 :: .took 129 :: more) :
    stepN 2 (sendTriad p e s) = .next (sendTriad (p + 1) e (pageSent p more s)) := by
  rw [pageSent, pageTransactions_eq, List.append_cons]
  calc stepN 2 (sendTriad p e s) = stepN 1 _ := stepN_succ (step_triadTaken hi rfl ha)
    _ = .next _ := stepN_succ (step_dataTaken_of_lt hi rfl rfl hpe)

/-- The two steps of the last page complete `OK` (R209). -/
theorem stepN_sendTriad_last {e : Fin 8} {s : State} {more : List SinkAnswer} (hi : s.resetIn = false)
    (ha : s.answers = .took 3 :: .took 129 :: more) :
    stepN 2 (sendTriad e e s) = .next (completeOk (pageSent e more s)) := by
  rw [pageSent, pageTransactions_eq, List.append_cons]
  calc stepN 2 (sendTriad e e s) = stepN 1 _ := stepN_succ (step_triadTaken hi rfl ha)
    _ = .next _ := stepN_succ (step_dataTaken_last hi rfl rfl)

/-- The state a `RENDER` leaves in which the sink took every transaction: `OK`, the transactions of the range emitted, `CUR`
naming the last page, `more` answers left (R207, R209, R211). -/
def renderDone (p e : Fin 8) (more : List SinkAnswer) (s : State) : State :=
  completeOk { s with
    answers := more
    cur := curOf (cursorTriad e)
    transactions := s.transactions ++ renderTransactions s.fb p e }

theorem renderDone_self (e : Fin 8) (more : List SinkAnswer) (s : State) :
    renderDone e e more s = completeOk (pageSent e more s) := by
  rw [renderDone, renderTransactions_self, pageSent]

theorem renderDone_of_lt {p e : Fin 8} (hpe : p < e) (more more' : List SinkAnswer) (s : State) :
    renderDone p e more s = renderDone (p + 1) e more (pageSent p more' s) := by
  rw [renderDone, renderTransactions_of_lt _ hpe, ← List.append_assoc]
  rfl

/-- From its first triad on, a `RENDER` of `n + 1` pages with a good sink takes two steps a page (R209). -/
theorem stepN_sendTriad {n : Nat} {p e : Fin 8} {s : State} {more : List SinkAnswer} (hn : e.val = p.val + n)
    (hi : s.resetIn = false) (ha : s.answers = goodAnswers (n + 1) ++ more) :
    stepN (2 * (n + 1)) (sendTriad p e s) = .next (renderDone p e more s) := by
  induction n generalizing p s with
  | zero =>
    obtain rfl : p = e := Fin.ext hn.symm
    rw [renderDone_self]
    exact stepN_sendTriad_last hi ha
  | succ n ih =>
    have hpe : p < e := by rw [Fin.lt_def]; omega
    have hp1 : (p + 1).val = p.val + 1 := Fin.val_add_one_of_lt (hpe.trans_le (Fin.le_last e))
    have hpage := stepN_sendTriad_of_lt (more := goodAnswers (n + 1) ++ more) hpe hi ha
    rw [Nat.mul_succ, Nat.add_comm, stepN_add hpage, renderDone_of_lt hpe more (goodAnswers (n + 1) ++ more)]
    exact ih (by omega) hi rfl

/-! ### REPLACEALL and then RENDER -/

theorem decode_replaceAll {pl : List Byte} (h : pl.length = 1024) :
    decode ⟨0x00000000000000000000000000000004, pl⟩ = .ok (.replaceAll pl) := by
  have hop : operationOf 0x00000000000000000000000000000004 = some .replaceAll := by decide
  simp only [decode, hop, requiredLength, h, if_true, assemble]

/-- The step of an idle block that is offered `REPLACEALL` (R126). -/
theorem step_replaceAll {pl : List Byte} {s : State} {rest : List Command} (h : pl.length = 1024) (hi : s.resetIn = false)
    (hr : s.rs = .idle) (hc : s.commands = ⟨0x00000000000000000000000000000004, pl⟩ :: rest) :
    step s = .next (completeOk { accept ⟨0x00000000000000000000000000000004, pl⟩ rest s with
      fb := frameOf (payloadWord pl) }) := by
  rw [step_of_idle_cons hi hr hc]
  simp only [runLatched, accept_latch, decode_replaceAll h]
  rfl

/-- The first step of `RENDER` of a range that is not empty (R209). -/
theorem step_render {p e : Fin 8} {s : State} {c : Command} {rest : List Command} (hpe : p ≤ e) (hi : s.resetIn = false)
    (hr : s.rs = .idle) (hc : s.commands = c :: rest) (hd : decode c = .ok (.render p.val e.val)) :
    step s = .next (sendTriad p e (accept c rest s)) := by
  rw [step_of_idle_cons hi hr hc]
  simp only [runLatched, accept_latch, hd, exec, execRender, pageOf_val, if_pos hpe]

/-- All transactions of `RENDER 0, 7` after `REPLACEALL` (R205, R207). -/
theorem renderTransactions_payload (pl : List Byte) : renderTransactions (frameOf (payloadWord pl)) 0 7 =
    (List.range 8).flatMap fun p =>
      [[BitVec.ofNat 8 (0xB0 + p), 0x00, 0x10], 0x40 :: (List.range 128).map fun x => pl.getD (8 * x + p) 0] := by
  have hrange : pageRange 0 7 = List.finRange 8 := by decide
  rw [renderTransactions, hrange, ← List.map_coe_finRange_eq_range (n := 8), List.flatMap_map]
  refine List.flatMap_congr fun p _ => ?_
  rw [pageTransactions_eq, cursorTriad_eq, dataFrame_frameOf_payloadWord]
  rfl

/-- Settles O54: one step for `REPLACEALL`, one for `RENDER` to its first triad, two for each of the eight pages. -/
theorem replaceAllThenRenderSendsThePayload : Obligations.ReplaceAllThenRenderSendsThePayload := by
  intro pl s rest more hpl hi hr hc ha
  have hd : decode ⟨0x00000000000000000000000700000030, []⟩ = .ok (.render (0 : Fin 8).val (7 : Fin 8).val) := by decide
  have hrun := calc
    stepN 18 s = stepN 17 _ := stepN_succ (step_replaceAll hpl hi hr hc)
    _ = stepN 16 _ := stepN_succ (step_render (by decide) hi rfl rfl hd)
    _ = .next _ := stepN_sendTriad (n := 7) rfl hi ha
  refine ⟨_, hrun, rfl, ?_, ?_⟩
  · simp [renderDone, recordOf, recordWord]
  · simp [renderDone, renderTransactions_payload]

end Sys2Proof.Machine
end

section
/-! PROOFS. The encoding (spec/30_encoding.md): a row of the opcode map is its operation's fields, decode and encode are
inverse to each other, and how a step takes the command it decodes, an illegal one included. -/

namespace Sys2Proof

/-! ### The rows of the opcode map -/

/-- A row of the map matches a word exactly when the word has the fields of the row's operation (R87). -/
theorem masked_eq_pattern_iff {r : OpcodeRow} (hr : r ∈ opcodeMap) (cw : CommandWord) :
    cw &&& r.mask = r.pattern ↔ rowFields r.op cw := by
  rw [← spelledBy_of_mem hr, OpcodeRow.spelledBy, beq_iff_eq]

/-- No two operations ask for the same fields: the opcode tells them apart (R86). -/
theorem rowFields_unique {a b : Operation} {cw : CommandWord} (ha : rowFields a cw) (hb : rowFields b cw) : a = b :=
  Operation.opcode_inj ((opcodeField_of_rowFields ha).symm.trans (opcodeField_of_rowFields hb))

/-- Each operation has one row. -/
theorem row_eq_of_op_eq {r r' : OpcodeRow} (hr : r ∈ opcodeMap) (hr' : r' ∈ opcodeMap) (h : r.op = r'.op) : r = r' :=
  List.inj_on_of_nodup_map (f := OpcodeRow.op) (by decide) hr hr' h

/-- What holds of every row holds of every operation. -/
theorem forall_row_iff (P : Operation → Prop) : (∀ op, P op) ↔ ∀ r ∈ opcodeMap, P r.op := by
  refine ⟨fun h r _ => h r.op, fun h op => ?_⟩
  obtain ⟨r, hr, rfl⟩ := exists_row op
  exact h r hr

/-- What holds of some operation holds of some row. -/
theorem exists_row_iff (P : Operation → Prop) : (∃ op, P op) ↔ ∃ r ∈ opcodeMap, P r.op := by
  refine ⟨fun ⟨op, h⟩ => ?_, fun ⟨r, _, h⟩ => ⟨r.op, h⟩⟩
  obtain ⟨r, hr, rfl⟩ := exists_row op
  exact ⟨r, hr, h⟩

/-- Settles O3: two rows that match a word have its opcode, so they are rows of one operation. -/
theorem atMostOneRowMatchesAWord : Obligations.AtMostOneRowMatchesAWord := by
  refine ⟨by decide, fun w r r' hr hr' h h' => row_eq_of_op_eq hr hr' ?_⟩
  exact rowFields_unique ((masked_eq_pattern_iff hr w).mp h) ((masked_eq_pattern_iff hr' w).mp h')

/-- Settles O4: the decoder evaluated on seven literal words. -/
theorem specWordsDecode : Obligations.SpecWordsDecode := by
  refine ⟨?_, ?_, ?_, ?_, ?_, ?_, ?_⟩ <;> decide

/-! ### Words from fields -/

/-- A command word is built from the fields it has, and from no others (R82, R85). -/
theorem commandWord_eq_iff {cw : CommandWord} {opc : Byte} {c : Colour} {a0 a1 a2 a3 a4 a5 : BitVec 16} :
    commandWord opc c a0 a1 a2 a3 a4 a5 = cw ↔
      opcodeField cw = opc ∧ colourField cw = c ∧ reservedField cw = 0 ∧ slot 0 cw = a0 ∧ slot 1 cw = a1 ∧
      slot 2 cw = a2 ∧ slot 3 cw = a3 ∧ slot 4 cw = a4 ∧ slot 5 cw = a5 ∧ slot 6 cw = 0 := by
  constructor
  · rintro rfl
    exact fields_commandWord opc c a0 a1 a2 a3 a4 a5
  · rintro ⟨rfl, rfl, hr, rfl, rfl, rfl, rfl, rfl, rfl, h6⟩
    exact commandWord_fields hr h6

/-- A slot whose high byte is zero holds one unsigned byte (R83, R85). -/
theorem highByte_eq_zero_iff (b : BitVec 16) : b &&& 0xFF00#16 = 0#16 ↔ b.toNat ≤ 255 := by
  have hsplit : b = b.extractLsb' 8 8 ++ b.extractLsb' 0 8 := by
    rw [BitVec.extractLsb'_append_extractLsb'_eq_extractLsb' (by rfl), BitVec.extractLsb'_eq_self]
  have hmask : b &&& (0xFF#8 ++ 0#8) = 0#8 ++ 0#8 ↔ b.extractLsb' 8 8 = 0#8 := by
    have hones (x : Byte) : x &&& 0xFF#8 = x := BitVec.and_allOnes
    conv => lhs; rw [hsplit, BitVec.and_append, append_eq_append_iff, hones]
    simp
  have hb := b.isLt
  refine hmask.trans ?_
  rw [← BitVec.toNat_inj, BitVec.extractLsb'_toNat, BitVec.toNat_ofNat, Nat.shiftRight_eq_div_pow]
  omega

/-! ### Decoding what was encoded -/

/-- The operation of an instruction (R86). -/
def Instr.operation : Instr → Operation
  | .clear => .clear
  | .setPixel .. => .setPixel
  | .blit .. => .blit
  | .replaceAll .. => .replaceAll
  | .drawLine .. => .drawLine
  | .hline .. => .hline
  | .vline .. => .vline
  | .drawRect .. => .drawRect
  | .fillRect .. => .fillRect
  | .drawTri .. => .drawTri
  | .drawEqTri .. => .drawEqTri
  | .drawCircle .. => .drawCircle
  | .fillCircle .. => .fillCircle
  | .drawChar .. => .drawChar
  | .drawText .. => .drawText
  | .render .. => .render

/-- The word of an encoded instruction is one of its operation's row (R85, R87). -/
theorem rowFields_encode {i : Instr} (h : i.wf = true) : rowFields i.operation (encode i).cw := by
  cases i
  case drawChar c x y =>
    have hbyte : c.setWidth 16 &&& 0xFF00#16 = 0#16 := by
      rw [highByte_eq_zero_iff, BitVec.toNat_setWidth]
      omega
    simp [encode, Instr.operation, rowFields, fields_commandWord, opcodeOf, hbyte]
  case drawText text x y =>
    simp only [Instr.wf, Bool.and_eq_true, decide_eq_true_eq] at h
    have hbyte : BitVec.ofNat 16 text.length &&& 0xFF00#16 = 0#16 := by
      rw [highByte_eq_zero_iff, BitVec.toNat_ofNat]
      omega
    simp [encode, Instr.operation, rowFields, fields_commandWord, opcodeOf, hbyte]
  all_goals simp [encode, Instr.operation, rowFields, fields_commandWord, opcodeOf]

/-- The payload of an encoded instruction has the length its word requires (R90). -/
theorem length_encode {i : Instr} (h : i.wf = true) :
    (encode i).pl.length = requiredLength i.operation (encode i).cw := by
  cases i
  case blit bitmap width x y =>
    simp only [Instr.wf, Bool.and_eq_true, decide_eq_true_eq] at h
    simp [encode, Instr.operation, requiredLength, operand, fields_commandWord, toInt_slotOf, h]
  case replaceAll bitmap64 => exact decide_eq_true_eq.mp h
  case drawText text x y =>
    simp only [Instr.wf, Bool.and_eq_true, decide_eq_true_eq] at h
    simp only [encode, Instr.operation, requiredLength, byteOperand, fields_commandWord, BitVec.toNat_setWidth,
      BitVec.toNat_ofNat]
    omega
  all_goals rfl

/-- The fields of an encoded instruction are its operands (R83, R86). -/
theorem assemble_encode {i : Instr} (h : i.wf = true) : assemble i.operation (encode i) = i := by
  cases i <;> simp only [Instr.wf, Bool.and_eq_true] at h <;>
    simp [encode, Instr.operation, assemble, operand, byteOperand, fields_commandWord, toInt_slotOf, h]

/-- Settles O5: the encoded word is in the operation's row, its payload fits, and its fields are the operands. -/
theorem decodeOfEncode : Obligations.DecodeOfEncode := fun _ h =>
  decode_eq_ok_iff.mpr ⟨_, rowFields_encode h, length_encode h, assemble_encode h⟩

/-! ### Encoding what was decoded -/

/-- An unsigned byte operand is its whole slot where the slot's high byte is zero (R83, R85). -/
theorem setWidth_byteOperand {k : Nat} {cw : CommandWord} (h : slot k cw &&& 0xFF00#16 = 0#16) :
    (byteOperand k cw).setWidth 16 = slot k cw := by
  have hle := (highByte_eq_zero_iff _).mp h
  apply BitVec.eq_of_toNat_eq
  rw [byteOperand, BitVec.toNat_setWidth, BitVec.toNat_setWidth]
  omega

/-- The operands in a word of an operation's row spell that word again (R85, R86). -/
theorem encode_assemble {op : Operation} {c : Command} (h : rowFields op c.cw)
    (hlen : c.pl.length = requiredLength op c.cw) : encode (assemble op c) = c := by
  obtain ⟨cw, pl⟩ := c
  cases op <;> simp only [rowFields, requiredLength, List.length_eq_zero_iff] at h hlen
  case drawChar | drawText =>
    obtain ⟨hopc, hcol, hres, hbyte, hzero⟩ := h
    simp [encode, assemble, opcodeOf, commandWord_eq_iff, operand, slotOf_toInt, setWidth_byteOperand hbyte, *]
  all_goals simp [encode, assemble, opcodeOf, commandWord_eq_iff, operand, slotOf_toInt, h, hlen]

/-- The operands of a command fit their slots, and its payload has the length they ask for (R83, R90). -/
theorem wf_assemble {op : Operation} {c : Command} (hlen : c.pl.length = requiredLength op c.cw) :
    (assemble op c).wf = true := by
  cases op
  case blit => simp [assemble, Instr.wf, operand, fitsSlot_toInt, hlen, requiredLength]
  case replaceAll => exact decide_eq_true hlen
  case drawText =>
    have hle : c.pl.length ≤ 255 := hlen ▸ Nat.le_of_lt_succ (byteOperand 2 c.cw).isLt
    simp [assemble, Instr.wf, operand, fitsSlot_toInt, hle]
  all_goals simp [assemble, Instr.wf, operand, fitsSlot_toInt]

/-- Settles O6: what decodes is assembled from a word of its operation's row, with a payload of the length required. -/
theorem encodeOfDecode : Obligations.EncodeOfDecode := by
  intro c i h
  obtain ⟨op, hrow, hlen, rfl⟩ := decode_eq_ok_iff.mp h
  exact ⟨encode_assemble hrow hlen, wf_assemble hlen⟩

/-! ### When decoding fails -/

/-- The decoder refuses a word exactly when it has no operation's fields (R85, R92). -/
theorem decode_eq_noRow_iff {c : Command} : decode c = .error .noRow ↔ ∀ op, ¬ rowFields op c.cw := by
  refine ⟨fun h op hrow => ?_, decode_of_no_rowFields⟩
  rw [decode_of_rowFields hrow] at h
  split at h <;> cases h

/-- The decoder refuses a payload exactly when the word has an operation's fields and asks for another length (R91, R92). -/
theorem decode_eq_payloadLength_iff {c : Command} : decode c = .error .payloadLength ↔
    ∃ op, rowFields op c.cw ∧ c.pl.length ≠ requiredLength op c.cw := by
  constructor
  · intro h
    by_cases hrow : ∃ op, rowFields op c.cw
    · obtain ⟨op, hop⟩ := hrow
      refine ⟨op, hop, fun hlen => ?_⟩
      rw [decode_of_rowFields hop, if_pos hlen] at h
      cases h
    · rw [decode_of_no_rowFields (not_exists.mp hrow)] at h
      cases h
  · rintro ⟨op, hop, hlen⟩
    rw [decode_of_rowFields hop, if_neg hlen]

/-- A word whose opcode no operation has decodes to nothing (R93). -/
theorem decode_of_opcodeField_ne {c : Command} (h : ∀ op : Operation, opcodeField c.cw ≠ op.opcode) :
    decode c = .error .noRow :=
  decode_of_no_rowFields fun op hrow => h op (opcodeField_of_rowFields hrow)

/-- Every operation's number is in the list of R86. -/
theorem Operation.opcode_mem (op : Operation) : op.opcode.toNat ∈
    [0x01, 0x02, 0x03, 0x04, 0x10, 0x11, 0x12, 0x13, 0x14, 0x15, 0x16, 0x17, 0x18, 0x20, 0x21, 0x30] := by
  cases op <;> decide

end Sys2Proof

namespace Sys2Proof.Machine

/-! ### Taking a command from the port -/

/-- The step of an idle block that is offered a pair which is no command (R81, R92; log 7). -/
theorem step_of_decode_error {s : State} {c : Command} {rest : List Command} {e : Illegal} (hi : s.resetIn = false)
    (hr : s.rs = .idle) (hc : s.commands = c :: rest) (hd : decode c = .error e) :
    step s = .next (raise .illegal (accept c rest s)) := by
  simp only [step_of_idle_cons hi hr hc, runLatched, accept_latch, hd]

/-- An illegal command ends with its code and leaves all but `ST`, the latch and the port as they were (R92, R271). -/
theorem illegal_changes_nothing_but_status {s : State} {c : Command} {rest : List Command} {e : Illegal}
    (hi : s.resetIn = false) (hr : s.rs = .idle) (hc : s.commands = c :: rest) (hd : decode c = .error e) :
    ∃ t, step s = .next t ∧ EndedWith 0x00000004#32 s t ∧ t.fb = s.fb ∧
      SameBesidesFb { s with latch := c, commands := rest } t := by
  have hrecord : recordOf .illegal = 0x00000004#32 := by decide
  refine ⟨_, step_of_decode_error hi hr hc hd, ?_, rfl, ?_⟩
  · simp [EndedWith, hrecord]
  · simp [SameBesidesFb]

/-- Settles O7: no row of the map has such an opcode. -/
theorem reservedOpcodesCompleteIllegal : Obligations.ReservedOpcodesCompleteIllegal := by
  intro s c rest hi hr hc hopc
  refine illegal_changes_nothing_but_status hi hr hc (decode_of_opcodeField_ne fun op hop => hopc ?_)
  rw [hop]
  exact op.opcode_mem

/-- Settles O8: the step that raises `ILLEGAL`, then the two refusals read off the rows of the map. -/
theorem illegalCommandsChangeNothingButStatus : Obligations.IllegalCommandsChangeNothingButStatus := by
  refine ⟨fun s c rest e => illegal_changes_nothing_but_status, fun c => ?_, fun c => ?_⟩
  · rw [decode_eq_noRow_iff, forall_row_iff fun op => ¬ rowFields op c.cw]
    exact forall₂_congr fun r hr => not_congr (masked_eq_pattern_iff hr c.cw).symm
  · rw [decode_eq_payloadLength_iff, exists_row_iff fun op => rowFields op c.cw ∧ c.pl.length ≠ requiredLength op c.cw]
    exact exists_congr fun r => and_congr_right fun hr => and_congr_left' (masked_eq_pattern_iff hr c.cw).symm

/-- Settles O9: acceptance, then the decoded instruction. -/
theorem stepRunsTheDecodedCommand : Obligations.StepRunsTheDecodedCommand := by
  intro s c rest i hi hr hc hd
  simp only [step_of_idle_cons hi hr hc, runLatched, accept_latch, hd]
  rfl

/-- What the host reads from its numbering is what the command decodes to. -/
theorem decode_tableCommand {nbits w : Nat} {i : Instr} (h : decodeTableWord nbits w = some i) :
    decode (tableCommand nbits w) = .ok i := by
  unfold decodeTableWord at h
  split at h
  · cases h; assumption
  · cases h

/-- Settles O10: the placed command is the first one offered to an idle block. -/
theorem fetchedWordRunsNext : Obligations.FetchedWordRunsNext := fun s nbits w i h =>
  stepRunsTheDecodedCommand (s.withFetchWord nbits w) _ s.commands i rfl rfl rfl (decode_tableCommand h)

/-! ### The command port and the status port -/

@[simp] theorem Effect.apply_commands (f : Effect) (s : State) : (f.apply s).commands = s.commands := by
  cases f <;> rfl

/-- Running a command takes none from the port (R81). -/
theorem runLatched_commands {s t : State} (h : runLatched s = .next t) : t.commands = s.commands := by
  obtain ⟨f, hf⟩ := runLatched_effect s.latch s.font s.fb
  rw [hf s rfl rfl rfl] at h
  cases h
  exact f.apply_commands s

/-- An answer of the sink takes none from the port either. -/
@[simp] theorem answered_commands (f : SinkAnswer → Effect) (s : State) : (answered f s).commands = s.commands := by
  obtain heq | ⟨a, rest, -, heq⟩ := answered_cases f s <;> simp [heq]

/-- Settles O11, by the ways a step can go: only acceptance takes from the port. -/
theorem onlyAnIdleBlockAcceptsACommand : Obligations.OnlyAnIdleBlockAcceptsACommand := by
  intro s t h
  obtain ⟨hi, rfl⟩ | ⟨-, hr, hc, rfl⟩ | ⟨-, hr, c, rest, hc, hrun⟩ | ⟨-, hr, hrun⟩ | ⟨-, p, e, hr, rfl⟩ |
    ⟨-, p, e, hr, rfl⟩ := step_cases h
  · simp [hi]
  · simp [hc]
  · simp [hr, hc, runLatched_commands hrun]
  · simp [hr, runLatched_commands hrun]
  · simp [hr, triadAnswered_eq]
  · simp [hr, dataAnswered_eq]

/-- Settles O51: a step that adds to the completion port has written the record to `ST` and left the block idle. -/
theorem statusPortReadsOnlyWhileIdle : Obligations.StatusPortReadsOnlyWhileIdle := by
  refine ⟨fun s hr => ⟨if_pos hr, if_pos hr⟩, fun s hr => ⟨if_neg hr, if_neg hr⟩, fun s t h hne => ?_⟩
  cases portsGrow_step h with
  | same _ hcomp _ => exact absurd hcomp hne
  | record _ hcomp _ hr => rw [hcomp, List.getLast?_concat, readSt, if_pos hr]
  | transaction _ _ _ hcomp _ _ _ _ => exact absurd hcomp hne

end Sys2Proof.Machine
end

section
/-! PROOFS. The pixel primitive and the frame-buffer operations (spec/40_framebuffer_ops.md): `plot` on words and pixels, then
CLEAR, SETPIXEL, BLIT and REPLACEALL, and how `RENDER` shows a pixel that was set. -/

namespace Sys2Proof.Machine

/-! ### The pixel primitive -/

/-- Off the panel there is nothing to plot (R121). -/
theorem plot_off_panel {x y : Int} (h : x < 0 ∨ x > 127 ∨ y < 0 ∨ y > 63) (c : Colour) (fb : Frame) :
    plot x y c fb = fb := if_pos h

/-- On the panel `plot` writes one bit of the word of its column (R121). -/
theorem plot_on_panel {x y : Int} (h : 0 ≤ x ∧ x ≤ 127 ∧ 0 ≤ y ∧ y ≤ 63) (c : Colour) (fb : Frame) :
    plot x y c fb = Frame.setWord fb x.toNat (setBit (Frame.word fb x.toNat) y.toNat c) := if_neg (by omega)

/-- Of two plots on one pixel the later one wins, whatever their colours (R121). -/
theorem plot_plot_same (x y : Int) (c d : Colour) (fb : Frame) : plot x y c (plot x y d fb) = plot x y c fb := by
  refine frame_eq_of_pixels fun v w hv hw => ?_
  simp only [pixel_plot _ _ _ _ _ _ hv hw]
  split <;> rfl

/-- Plots of one colour commute (R121). -/
theorem plot_comm (x y x' y' : Int) (c : Colour) (fb : Frame) :
    plot x y c (plot x' y' c fb) = plot x' y' c (plot x y c fb) := by
  refine frame_eq_of_pixels fun v w hv hw => ?_
  simp only [pixel_plot _ _ _ _ _ _ hv hw]
  split <;> split <;> rfl

/-- Settles O13: on the panel one word is written; the rest is read off what `plot` does to every pixel. -/
theorem plotChangesOnePixel : Obligations.PlotChangesOnePixel := by
  intro x y c fb
  refine ⟨fun h => plot_off_panel h c fb, fun h => ?_, plot_plot_same x y c c fb,
    fun x' y' => plot_comm x y x' y' c fb, plot_plot_same x y c (!c) fb⟩
  have hx : x.toNat < 128 := by omega
  rw [plot_on_panel h]
  refine ⟨?_, fun x' _ hne => ?_⟩
  · rw [word_setWord, if_pos ⟨rfl, hx⟩, setBit]
  · rw [word_setWord, if_neg (by omega)]

/-! ### CLEAR -/

/-- What writing the Frame Buffer and completing `OK` leaves besides `FB` (R271). -/
theorem completeOk_withFb_frame (fb : Frame) (s : State) :
    EndedWith 0x00000000#32 s (completeOk { s with fb := fb }) ∧ SameBesidesFb s (completeOk { s with fb := fb }) := by
  have hrecord : recordOf .ok = 0x00000000#32 := by decide
  exact ⟨⟨hrecord, congrArg (s.completions ++ [·]) hrecord, rfl, rfl, rfl⟩, rfl, rfl, rfl, rfl, rfl, rfl, rfl, rfl⟩

/-- Every page of a clear Frame Buffer is 128 zero bytes (R120, R205). -/
theorem dataFrame_clear (p : Fin 8) : dataFrame (frameOf fun _ => 0) p = 0x40 :: List.replicate 128 0x00 := by
  refine congrArg (0x40#8 :: ·) (List.eq_replicate_iff.mpr ⟨by simp, fun b hb => ?_⟩)
  obtain ⟨x, -, rfl⟩ := List.mem_map.mp hb
  simp [pageByte]

/-- Settles O14: the words and the pages of a clear Frame Buffer are zero. -/
theorem clearZeroesEveryWord : Obligations.ClearZeroesEveryWord := by
  refine ⟨decodeOfEncode .clear rfl, fun s => ⟨_, rfl, fun x hx => ?_, dataFrame_clear, completeOk_withFb_frame _ s⟩⟩
  exact (word_frameOf _ x).trans (if_pos hx)

/-! ### SETPIXEL -/

/-- Settles O15: a drawing operation with one position. -/
theorem setPixelWritesItsPixel : Obligations.SetPixelWritesItsPixel := by
  refine ⟨fun a0 a1 c => ?_, fun px py c s => ⟨_, rfl, draw_spec c [(px, py)] s _ fun x y _ _ => ?_⟩⟩
  · have hdecode := decodeOfEncode (.setPixel a0.toInt a1.toInt c) (by simp [Instr.wf, fitsSlot_toInt])
    simpa [encode, opcodeOf, slotOf_toInt] using hdecode
  · rw [List.mem_singleton, Prod.mk.injEq]

/-! ### BLIT -/

/-- The word of `BLIT` asks for the payload length of its width operand and for nothing else (R86, R90). -/
theorem decode_blit (a0 a1 a2 : BitVec 16) (pl : List Byte) : decode ⟨commandWord 0x03 false a0 a1 a2 0 0 0, pl⟩ =
    if pl.length = a2.toInt.toNat then .ok (.blit pl a2.toInt a0.toInt a1.toInt) else .error .payloadLength := by
  have hrow : rowFields .blit (commandWord 0x03 false a0 a1 a2 0 0 0) := by simp [rowFields, fields_commandWord]
  rw [decode_of_rowFields hrow]
  simp only [requiredLength, assemble, operand, fields_commandWord]

/-- The positions of a bitmap are the bits it covers (R55, R124). -/
theorem mem_bitmapPixels_iff_covers {bitmap : List Byte} {width px py x y : Int} :
    (x, y) ∈ bitmapPixels bitmap width px py ↔ BitmapCovers bitmap width px py x y := by
  simp only [mem_bitmapPixels, BitmapCovers, byteAt, Int.lt_toNat]

/-- Settles O16: a drawing operation with the positions of the bitmap's set bits. -/
theorem blitSetsTheBitsOfItsBitmap : Obligations.BlitSetsTheBitsOfItsBitmap := by
  refine ⟨fun a0 a1 a2 pl => ?_, fun bitmap width px py s =>
    ⟨_, rfl, draw_spec true _ s _ fun x y _ _ => mem_bitmapPixels_iff_covers⟩⟩
  have hlen : (max a2.toInt 0).toNat = a2.toInt.toNat := by omega
  rw [hlen, decode_blit]

/-- A column byte moved down by `py` rows, or up by `-py`; bits pushed out are lost (R125). -/
def shiftedByte (b : Byte) (py : Int) : Word :=
  if 0 ≤ py then b.setWidth 64 <<< py.toNat else b.setWidth 64 >>> (-py).toNat

/-- Row `y` of a shifted column byte is its bit `y - py` (R125). -/
theorem getLsbD_shiftedByte (b : Byte) (py : Int) {y : Nat} (hy : y < 64) :
    (shiftedByte b py).getLsbD y = true ↔ ∃ k : Nat, k < 8 ∧ b.getLsbD k = true ∧ (y : Int) = py + k := by
  have hbit {k : Nat} (h : b.getLsbD k = true) : k < 8 := BitVec.lt_of_getLsbD h
  unfold shiftedByte
  split
  · simp only [BitVec.getLsbD_shiftLeft, BitVec.getLsbD_setWidth, Bool.and_eq_true, decide_eq_true_eq,
      Bool.not_eq_true', decide_eq_false_iff_not]
    constructor
    · rintro ⟨⟨-, hle⟩, -, hb⟩
      exact ⟨_, hbit hb, hb, by omega⟩
    · rintro ⟨k, hk, hb, hyk⟩
      obtain rfl : k = y - py.toNat := by omega
      exact ⟨⟨hy, by omega⟩, by omega, hb⟩
  · simp only [BitVec.getLsbD_ushiftRight, BitVec.getLsbD_setWidth, Bool.and_eq_true, decide_eq_true_eq]
    constructor
    · rintro ⟨-, hb⟩
      exact ⟨_, hbit hb, hb, by omega⟩
    · rintro ⟨k, hk, hb, hyk⟩
      obtain rfl : k = (-py).toNat + y := by omega
      exact ⟨by omega, hb⟩

/-- In a column of the bitmap, `BLIT` plots the set bits of that column's shifted byte (R125). -/
theorem covers_column_iff {bitmap : List Byte} {width px py : Int} {col y : Nat} (hy : y < 64)
    (h : px ≤ col ∧ (col : Int) < px + width) : BitmapCovers bitmap width px py col y ↔
      (shiftedByte (bitmap.getD ((col : Int) - px).toNat 0) py).getLsbD y = true := by
  rw [getLsbD_shiftedByte _ _ hy]
  constructor
  · rintro ⟨i, b, -, hb, hbit, hcol, hrow⟩
    obtain rfl : i = ((col : Int) - px).toNat := by omega
    exact ⟨b, hb, hbit, hrow⟩
  · rintro ⟨b, hb, hbit, hrow⟩
    exact ⟨_, b, by omega, hb, hbit, by omega, hrow⟩

/-- A drawing operation of colour 1 ORs into a column the rows it plots there (R119). -/
theorem word_plotAll_true {ps : List Pixel} {col : Nat} {m : Word} (fb : Frame) (hcol : col < 128)
    (h : ∀ y : Nat, y < 64 → (((col : Int), (y : Int)) ∈ ps ↔ m.getLsbD y = true)) :
    Frame.word (plotAll true ps fb) col = Frame.word fb col ||| m := by
  refine BitVec.eq_of_getLsbD_eq fun y hy => (pixel_plotAll true ps fb col y hcol hy).trans ?_
  rw [BitVec.getLsbD_or]
  by_cases hm : m.getLsbD y = true
  · rw [if_pos ((h y hy).mpr hm), hm, Bool.or_true]
  · rw [if_neg (mt (h y hy).mp hm), Bool.eq_false_iff.mpr hm, Bool.or_false, Frame.pixel]

/-- Settles O17: in a column of the bitmap the rows plotted are its shifted byte, in another there are none. -/
theorem blitWordForm : Obligations.BlitWordForm := by
  refine fun bitmap width px py s => ⟨_, rfl, fun col hcol => ⟨fun h => ?_, fun h => ?_⟩⟩
  · exact word_plotAll_true s.fb hcol fun y hy => mem_bitmapPixels_iff_covers.trans (covers_column_iff hy h)
  · refine (word_plotAll_true (m := 0) s.fb hcol fun y _ => ?_).trans (BitVec.or_zero ..)
    have hnone : ¬ BitmapCovers bitmap width px py col y := by
      rintro ⟨i, b, hi, -, -, hx, -⟩
      exact h (by omega)
    simpa [mem_bitmapPixels_iff_covers] using hnone

/-! ### REPLACEALL -/

/-- The low `m` bytes of a number are the sum of them at their places. -/
theorem mod_eq_sum_bytes (n m : Nat) :
    n % 2 ^ (8 * m) = ((List.range m).map fun k => n / 2 ^ (8 * k) % 256 * 2 ^ (8 * k)).sum := by
  induction m with
  | zero => simp [Nat.mod_one]
  | succ m ih =>
    rw [List.range_succ, List.map_append, List.sum_append, ← ih, Nat.mul_succ, Nat.pow_add, Nat.mod_mul]
    simp [Nat.mul_comm]

/-- A word is the sum of its eight bytes at their places (R54). -/
theorem toNat_eq_sum_pageByte (w : Word) :
    w.toNat = ((List.range 8).map fun k => (pageByte w k).toNat * 2 ^ (8 * k)).sum := by
  calc w.toNat = w.toNat % 2 ^ (8 * 8) := (Nat.mod_eq_of_lt w.isLt).symm
    _ = _ := mod_eq_sum_bytes w.toNat 8
    _ = _ := by simp only [pageByte_eq, BitVec.toNat_ofNat, Nat.reducePow, Nat.mod_mod]

/-- A payload word is the sum of its eight bytes at their places (R54, R126). -/
theorem toNat_payloadWord (pl : List Byte) (x : Nat) : (payloadWord pl x).toNat =
    ((List.range 8).map fun k => (pl.getD (8 * x + k) 0).toNat * 2 ^ (8 * k)).sum := by
  rw [toNat_eq_sum_pageByte]
  refine congrArg List.sum (List.map_congr_left fun k hk => ?_)
  rw [pageByte_payloadWord pl x (List.mem_range.mp hk), byteAt]

/-- The word of `REPLACEALL` asks for 1024 payload bytes and for nothing else (R86, R90). -/
theorem decode_replaceAll_word (pl : List Byte) : decode ⟨commandWord 0x04 false 0 0 0 0 0 0, pl⟩ =
    if pl.length = 1024 then .ok (.replaceAll pl) else .error .payloadLength := by
  have hrow : rowFields .replaceAll (commandWord 0x04 false 0 0 0 0 0 0) := by simp [rowFields, fields_commandWord]
  rw [decode_of_rowFields hrow]
  rfl

/-- Settles O18: words and pixels of the payload words; a payload of another length does not decode. -/
theorem replaceAllTakesThePayload : Obligations.ReplaceAllTakesThePayload := by
  refine ⟨decode_replaceAll_word, fun pl s hpl => ⟨_, rfl, fun x hx => ?_, fun x y hx hy => ?_,
    completeOk_withFb_frame _ s⟩, fun pl s rest hpl hi hr hc => ?_⟩
  · rw [completeOk_fb, word_frameOf, if_pos hx, toNat_payloadWord]
  · have hbyte : 8 * x + y / 8 < pl.length := by omega
    rw [completeOk_fb, pixel_frameOf _ x y hx, getLsbD_payloadWord pl x y hy, byteAt, List.getD_eq_getElem _ _ hbyte,
      List.getElem?_eq_getElem hbyte, Option.map_some]
  · obtain ⟨t, hstep, hended, hfb, -⟩ :=
      illegal_changes_nothing_but_status hi hr hc ((decode_replaceAll_word pl).trans (if_neg hpl))
    exact ⟨t, hstep, hfb, hended⟩

/-! ### SETPIXEL and then RENDER -/

/-- In the data frame of its page, pixel `(x, y)` is bit `y mod 8` of data byte `x` (R51, R52, R205). -/
theorem getElem?_dataFrame_pixel (fb : Frame) {x y : Nat} (hx : x < 128) (p : Fin 8) (hp : p.val = y / 8) :
    (dataFrame fb p)[x + 1]?.map (fun b => b.getLsbD (y % 8)) = some (Frame.pixel fb x y) := by
  have hy : 8 * (y / 8) + y % 8 = y := Nat.div_add_mod y 8
  have hbit : y % 8 < 8 := Nat.mod_lt y (by decide)
  simp [dataFrame, hx, hp, pageByte, hbit, hy, Frame.pixel]

/-- Settles O55: one step for `SETPIXEL`, one for `RENDER` to its triad, two for the page; twice is once by `plot`. -/
theorem setPixelIsSeenByRender : Obligations.SetPixelIsSeenByRender := by
  intro x y c s w r rest more hx hy hi hr hc hw hd ha
  refine ⟨?_, fun u t t' h h' => ?_⟩
  · let p : Fin 8 := ⟨y / 8, by omega⟩
    have hrun := calc
      stepN 4 s = stepN 3 _ := stepN_succ (stepRunsTheDecodedCommand s w _ _ hi hr hc hw)
      _ = stepN 2 _ := stepN_succ (step_render (p := p) (e := p) le_rfl hi rfl rfl hd)
      _ = .next _ := stepN_sendTriad_last hi ha
    refine ⟨_, dataFrame (plot x y c s.fb) p, hrun, rfl, ?_, by simp [dataFrame], ?_⟩
    · exact congrArg (s.transactions ++ ·) ((pageTransactions_eq _ p).trans (by rw [cursorTriad_eq]; rfl))
    · rw [getElem?_dataFrame_pixel _ hx p rfl, pixel_plot _ _ _ _ _ _ hx hy, if_pos ⟨rfl, rfl⟩]
  · cases h
    cases h'
    exact plot_plot_same x y c c u.fb

end Sys2Proof.Machine
end

section
/-! PROOFS. Lines and segments (spec/41_shape_ops.md, R141 to R148): the walk of `DRAWLINE` in closed form and what follows from
it, then `HLINE` and `VLINE`. -/

namespace Sys2Proof.Machine

/-! ### Words that spell an instruction -/

/-- A command that is the encoding of a well-formed instruction decodes to it (R86). -/
theorem decode_of_encode_eq {i : Instr} {c : Command} (hwf : i.wf = true) (h : encode i = c) : decode c = .ok i :=
  h ▸ decodeOfEncode i hwf

/-! ### The walk of a line -/

/-- How often the minor coordinate moves in the next `n` steps of the walk when the error term is `err` (R141). -/
def movesFrom (dx dy err n : Int) : Int := (n * dy + (dx - 1) - err) / dx

/-- The walk starts with the error term `dx div 2` (R141). -/
theorem movesFrom_start (dx dy n : Int) : movesFrom dx dy (dx / 2) n = minorMoves dx dy n := rfl

theorem movesFrom_zero {dx err : Int} (dy : Int) (h0 : 0 ≤ err) (h : err < dx) : movesFrom dx dy err 0 = 0 :=
  Int.ediv_eq_zero_of_lt (by omega) (by omega)

/-- A step in which the minor coordinate moves (R141). -/
theorem movesFrom_succ_move {dx : Int} (dy err n : Int) (h : 0 < dx) :
    movesFrom dx dy err (n + 1) = movesFrom dx dy (err - dy + dx) n + 1 := by
  have hnum : (n + 1) * dy + (dx - 1) - err = n * dy + (dx - 1) - (err - dy + dx) + 1 * dx := by ring
  rw [movesFrom, hnum, Int.add_mul_ediv_right _ _ h.ne', movesFrom]

/-- A step in which it stays (R141). -/
theorem movesFrom_succ_stay (dx dy err n : Int) : movesFrom dx dy err (n + 1) = movesFrom dx dy (err - dy) n := by
  have hnum : (n + 1) * dy + (dx - 1) - err = n * dy + (dx - 1) - (err - dy) := by ring
  rw [movesFrom, hnum, movesFrom]

/-- The loop of R141 in closed form, while the error term lies in `[0, dx)`. -/
theorem lineLoop_eq_flatMap (steep : Bool) {dx dy : Int} (ystep width : Int) (hdy : 0 ≤ dy) (hle : dy ≤ dx) (n : Nat)
    (x y err : Int) (h0 : 0 ≤ err) (hlt : err < dx) :
    lineLoop steep dx dy ystep width n x y err =
      (List.range n).flatMap fun i : Nat => strokePixels steep width (x + i) (y + ystep * movesFrom dx dy err i) := by
  induction n generalizing x y err with
  | zero => rfl
  | succ n ih =>
    rw [List.range_succ_eq_map, List.flatMap_cons, List.flatMap_map, lineLoop, Nat.cast_zero, movesFrom_zero dy h0 hlt,
      mul_zero, add_zero, add_zero]
    congr 1
    split
    · rw [ih _ _ _ (by omega) (by omega)]
      refine congrArg (List.flatMap · _) (funext fun i => ?_)
      rw [Nat.cast_succ, movesFrom_succ_move dy err i (by omega)]
      congr 1 <;> ring
    · rw [ih _ _ _ (by omega) (by omega)]
      refine congrArg (List.flatMap · _) (funext fun i => ?_)
      rw [Nat.cast_succ, movesFrom_succ_stay]
      congr 1; ring

/-- The minor coordinate of an upward line at the major coordinate `a` (R141, R144). -/
def lineMinor (a0 b0 a1 b1 a : Int) : Int :=
  b0 + (if b0 < b1 then 1 else -1) * minorMoves (a1 - a0) (b1 - b0).natAbs (a - a0)

/-- A walk up the major axis: one stroke for each major coordinate between the ends (R141). -/
theorem walkMajor_eq_flatMap (steep : Bool) {x0 y0 x1 y1 : Int} (width : Int) (hx : x0 ≤ x1)
    (hle : ((y1 - y0).natAbs : Int) ≤ x1 - x0) : walkMajor steep x0 y0 x1 y1 width =
      (intRange x0 x1).flatMap fun a => strokePixels steep width a (lineMinor x0 y0 x1 y1 a) := by
  have hcount : x1 + 1 - x0 = x1 - x0 + 1 := by omega
  rw [walkMajor, intRange, List.flatMap_map, hcount]
  simp only [lineMinor, add_sub_cancel_left]
  obtain heq | hlt := hx.eq_or_lt
  · obtain rfl := heq
    simp [lineLoop, minorMoves]
  · exact lineLoop_eq_flatMap steep _ width (by omega) hle _ x0 y0 _ (by omega) (by omega)

/-- A position of a stroke in (major, minor) coordinates (R141, R142). -/
theorem mem_strokePixels_major {steep : Bool} {width x y a b : Int} :
    (if steep then (b, a) else (a, b)) ∈ strokePixels steep width x y ↔
      a = x ∧ ∃ k : Int, 0 ≤ k ∧ k < width ∧ b = y + k := by
  have hmem : (if steep then (b, a) else (a, b)) ∈ strokePixels steep width x y ↔
      ∃ k : Int, 0 ≤ k ∧ k < width ∧ a = x ∧ b = y + k := by
    cases steep
    · simp [mem_strokePixels]
    · simp [mem_strokePixels, and_comm (a := a = x)]
  rw [hmem]
  constructor
  · rintro ⟨k, h0, h1, hx, hy⟩
    exact ⟨hx, k, h0, h1, hy⟩
  · rintro ⟨hx, k, h0, h1, hy⟩
    exact ⟨k, h0, h1, hx, hy⟩

/-- A walk up the major axis plots the upward line, in (major, minor) coordinates (R141). -/
theorem mem_walkMajor {steep : Bool} {x0 y0 x1 y1 width a b : Int} (hx : x0 ≤ x1)
    (hle : ((y1 - y0).natAbs : Int) ≤ x1 - x0) :
    (if steep then (b, a) else (a, b)) ∈ walkMajor steep x0 y0 x1 y1 width ↔
      UpwardLineCovers x0 y0 x1 y1 width a b := by
  simp only [walkMajor_eq_flatMap steep width hx hle, List.mem_flatMap, mem_strokePixels_major, mem_intRange]
  constructor
  · rintro ⟨_, ⟨h0, h1⟩, rfl, hk⟩
    exact ⟨h0, h1, hk⟩
  · rintro ⟨h0, h1, hk⟩
    exact ⟨a, ⟨h0, h1⟩, rfl, hk⟩

/-- The walk between ends in either order, in (major, minor) coordinates (R141). -/
theorem mem_orderMajor {steep : Bool} {x0 y0 x1 y1 width a b : Int}
    (hle : (y1 - y0).natAbs ≤ (x1 - x0).natAbs) :
    (if steep then (b, a) else (a, b)) ∈ orderMajor steep x0 y0 x1 y1 width ↔
      MajorLineCovers x0 y0 x1 y1 width a b := by
  unfold orderMajor MajorLineCovers
  split
  · rw [mem_walkMajor (by omega) (by omega)]
    simp [show x1 < x0 by omega, show ¬ x0 ≤ x1 by omega]
  · rw [mem_walkMajor (by omega) (by omega)]
    simp [show x0 ≤ x1 by omega, show ¬ x1 < x0 by omega]

/-- The positions `DRAWLINE` plots are those of the closed form (R141, R142, R144). -/
theorem mem_linePixels {x0 y0 x1 y1 width x y : Int} :
    (x, y) ∈ linePixels x0 y0 x1 y1 width ↔ LineCovers x0 y0 x1 y1 width x y := by
  unfold linePixels LineCovers
  split
  · rename_i hsteep
    simpa [hsteep, Nat.not_le.mpr hsteep] using
      mem_orderMajor (steep := true) (a := y) (b := x) (width := width) (le_of_lt hsteep)
  · rename_i hflat
    simpa [hflat, Nat.not_lt.mp hflat] using
      mem_orderMajor (steep := false) (a := x) (b := y) (width := width) (Nat.not_lt.mp hflat)

/-- Settles O19: the loop in closed form. -/
theorem drawLineClosedForm : Obligations.DrawLineClosedForm := by
  refine ⟨fun a0 a1 a2 a3 a4 c => ?_, fun x0 y0 x1 y1 width c s =>
    ⟨_, rfl, draw_spec c _ s _ fun x y _ _ => mem_linePixels⟩⟩
  exact decode_of_encode_eq (by simp [Instr.wf, fitsSlot_toInt]) (by simp [encode, opcodeOf, slotOf_toInt])

/-! ### Lines with their ends exchanged -/

theorem orderMajor_swap (steep : Bool) {x0 y0 x1 y1 : Int} (width : Int)
    (hle : (y1 - y0).natAbs ≤ (x1 - x0).natAbs) :
    orderMajor steep x1 y1 x0 y0 width = orderMajor steep x0 y0 x1 y1 width := by
  unfold orderMajor
  obtain hlt | heq | hgt := lt_trichotomy x0 x1
  · rw [if_pos hlt, if_neg (by omega)]
  · obtain rfl := heq
    obtain rfl : y0 = y1 := by omega
    rfl
  · rw [if_neg (by omega), if_pos hgt]

/-- Both orders of the ends give the same walk (R143). -/
theorem linePixels_swap (x0 y0 x1 y1 width : Int) : linePixels x1 y1 x0 y0 width = linePixels x0 y0 x1 y1 width := by
  have hx : (x0 - x1).natAbs = (x1 - x0).natAbs := by omega
  have hy : (y0 - y1).natAbs = (y1 - y0).natAbs := by omega
  simp only [linePixels, hx, hy]
  split
  · exact orderMajor_swap true width (by omega)
  · exact orderMajor_swap false width (by omega)

/-- Settles O20: the list of positions is the same. -/
theorem drawLineIsSymmetricInItsEnds : Obligations.DrawLineIsSymmetricInItsEnds := fun x0 y0 x1 y1 width c s =>
  congrArg (fun ps => Host.Outcome.next (draw c ps s)) (linePixels_swap x0 y0 x1 y1 width).symm

/-! ### Lines of width 1 -/

/-- Where the minor distance is exact, the minor coordinate has moved by it (R144). -/
theorem minorMoves_of_mul_eq {dx dy n m : Int} (hdx : 0 ≤ dx) (h : n * dy = m * dx) (hm : dx = 0 → m = 0) :
    minorMoves dx dy n = m := by
  obtain hzero | hpos := hdx.eq_or_lt
  · rw [hm hzero.symm, ← hzero, minorMoves, Int.ediv_zero]
  · rw [minorMoves, h, add_sub_assoc, add_comm, Int.add_mul_ediv_right _ _ hpos.ne',
      Int.ediv_eq_zero_of_lt (by omega) (by omega), zero_add]

theorem lineMinor_start {a0 a1 : Int} (b0 b1 : Int) (h : a0 ≤ a1) : lineMinor a0 b0 a1 b1 a0 = b0 := by
  rw [lineMinor, minorMoves_of_mul_eq (m := 0) (by omega) (by ring) (fun _ => rfl)]
  ring

theorem lineMinor_end {a0 b0 a1 b1 : Int} (h : ((b1 - b0).natAbs : Int) ≤ a1 - a0) :
    lineMinor a0 b0 a1 b1 a1 = b1 := by
  rw [lineMinor, minorMoves_of_mul_eq (m := (b1 - b0).natAbs) (by omega) (by ring) (by omega)]
  split <;> omega

/-- An upward line of width 1 has one position at each major coordinate between its ends (R143). -/
theorem upwardLineCovers_one {a0 b0 a1 b1 a b : Int} :
    UpwardLineCovers a0 b0 a1 b1 1 a b ↔ a0 ≤ a ∧ a ≤ a1 ∧ b = lineMinor a0 b0 a1 b1 a := by
  unfold UpwardLineCovers lineMinor
  constructor
  · rintro ⟨h0, h1, k, hk0, hk1, rfl⟩
    obtain rfl : k = 0 := by omega
    exact ⟨h0, h1, add_zero _⟩
  · rintro ⟨h0, h1, rfl⟩
    exact ⟨h0, h1, 0, le_rfl, one_pos, (add_zero _).symm⟩

/-- So has a line with its ends in either order. -/
theorem existsUnique_majorLineCovers {a0 b0 a1 b1 a : Int} (h0 : min a0 a1 ≤ a) (h1 : a ≤ max a0 a1) :
    ∃! b, MajorLineCovers a0 b0 a1 b1 1 a b := by
  simp only [MajorLineCovers, upwardLineCovers_one]
  obtain hle | hlt := le_or_gt a0 a1
  · refine ⟨lineMinor a0 b0 a1 b1 a, .inl ⟨hle, by omega, by omega, rfl⟩, ?_⟩
    rintro b (⟨-, -, -, hb⟩ | ⟨hlt, -⟩)
    · exact hb
    · omega
  · refine ⟨lineMinor a1 b1 a0 b0 a, .inr ⟨hlt, by omega, by omega, rfl⟩, ?_⟩
    rintro b (⟨hle, -⟩ | ⟨-, -, -, hb⟩)
    · omega
    · exact hb

/-- The first end is on a line of width 1 (R143). -/
theorem majorLineCovers_end {a0 b0 a1 b1 : Int} (h : (b1 - b0).natAbs ≤ (a1 - a0).natAbs) :
    MajorLineCovers a0 b0 a1 b1 1 a0 b0 := by
  simp only [MajorLineCovers, upwardLineCovers_one]
  obtain hle | hlt := le_or_gt a0 a1
  · exact .inl ⟨hle, le_rfl, hle, (lineMinor_start b0 b1 hle).symm⟩
  · exact .inr ⟨hlt, hlt.le, le_rfl, (lineMinor_end (by omega)).symm⟩

theorem mem_linePixels_end (x0 y0 x1 y1 : Int) : (x0, y0) ∈ linePixels x0 y0 x1 y1 1 := by
  rw [mem_linePixels]
  obtain hle | hlt := le_or_gt (y1 - y0).natAbs (x1 - x0).natAbs
  · exact .inr ⟨hle, majorLineCovers_end hle⟩
  · exact .inl ⟨hlt, majorLineCovers_end hlt.le⟩

theorem length_walkMajor_one (steep : Bool) {x0 y0 x1 y1 : Int} (hx : x0 ≤ x1)
    (hle : ((y1 - y0).natAbs : Int) ≤ x1 - x0) : (walkMajor steep x0 y0 x1 y1 1).length = (x1 - x0).natAbs + 1 := by
  rw [walkMajor_eq_flatMap steep 1 hx hle]
  simp only [List.length_flatMap, strokePixels, List.length_map, List.length_range, List.map_const', List.sum_replicate,
    intRange, Int.toNat_one, smul_eq_mul, mul_one]
  omega

theorem length_orderMajor_one (steep : Bool) {x0 y0 x1 y1 : Int} (hle : (y1 - y0).natAbs ≤ (x1 - x0).natAbs) :
    (orderMajor steep x0 y0 x1 y1 1).length = (x1 - x0).natAbs + 1 := by
  unfold orderMajor
  split
  · rw [length_walkMajor_one steep (by omega) (by omega)]
    omega
  · exact length_walkMajor_one steep (by omega) (by omega)

/-- A line of width 1 plots as many positions as its longer distance, and one more (R143). -/
theorem length_linePixels_one (x0 y0 x1 y1 : Int) :
    (linePixels x0 y0 x1 y1 1).length = max (x1 - x0).natAbs (y1 - y0).natAbs + 1 := by
  unfold linePixels
  split
  · rw [length_orderMajor_one true (by omega), max_eq_right (by omega)]
  · rw [length_orderMajor_one false (by omega), max_eq_left (by omega)]

theorem lineCovers_of_flat {x0 y0 x1 y1 : Int} (h : (y1 - y0).natAbs ≤ (x1 - x0).natAbs) (width x y : Int) :
    LineCovers x0 y0 x1 y1 width x y ↔ MajorLineCovers x0 y0 x1 y1 width x y := by
  simp [LineCovers, h, Nat.not_lt.mpr h]

theorem lineCovers_of_steep {x0 y0 x1 y1 : Int} (h : (x1 - x0).natAbs < (y1 - y0).natAbs) (width x y : Int) :
    LineCovers x0 y0 x1 y1 width x y ↔ MajorLineCovers y0 x0 y1 x1 width y x := by
  simp [LineCovers, h, Nat.not_le.mpr h]

/-- Settles O21: the count, the ends (the second by exchanging them), and the closed form at one major coordinate. -/
theorem drawLineOfWidthOnePlotsOnePixelPerMajorCoordinate :
    Obligations.DrawLineOfWidthOnePlotsOnePixelPerMajorCoordinate := by
  intro x0 y0 x1 y1
  refine ⟨length_linePixels_one x0 y0 x1 y1, mem_linePixels_end x0 y0 x1 y1, ?_, fun h x h0 h1 => ?_,
    fun h y h0 h1 => ?_⟩
  · rw [← linePixels_swap]
    exact mem_linePixels_end x1 y1 x0 y0
  · simp only [mem_linePixels, lineCovers_of_flat h]
    exact existsUnique_majorLineCovers h0 h1
  · simp only [mem_linePixels, lineCovers_of_steep h]
    exact existsUnique_majorLineCovers h0 h1

/-! ### Special directions -/

/-- A line without minor distance keeps its minor coordinate. -/
theorem lineMinor_of_eq {a0 a1 : Int} (b a : Int) (h : a0 ≤ a1) : lineMinor a0 b a1 b a = b := by
  rw [lineMinor, minorMoves_of_mul_eq (m := 0) (by omega) (by simp) (fun _ => rfl)]
  ring

theorem majorLineCovers_of_eq {a0 a1 b a b' : Int} :
    MajorLineCovers a0 b a1 b 1 a b' ↔ b' = b ∧ min a0 a1 ≤ a ∧ a ≤ max a0 a1 := by
  simp only [MajorLineCovers, upwardLineCovers_one]
  obtain hle | hlt := le_or_gt a0 a1
  · rw [lineMinor_of_eq b a hle]; omega
  · rw [lineMinor_of_eq b a hlt.le]; omega

/-- A horizontal line covers a row segment (R143). -/
theorem lineCovers_horizontal {x0 x1 row x y : Int} : LineCovers x0 row x1 row 1 x y ↔ RowCovers x0 x1 row x y :=
  (lineCovers_of_flat (by simp) 1 x y).trans majorLineCovers_of_eq

/-- A vertical line covers a column segment (R143); the one of a single position is not steep. -/
theorem lineCovers_vertical {y0 y1 col x y : Int} : LineCovers col y0 col y1 1 x y ↔ ColumnCovers y0 y1 col x y := by
  by_cases h : y0 = y1
  · subst h
    rw [lineCovers_horizontal, RowCovers, ColumnCovers]
    omega
  · exact (lineCovers_of_steep (by omega) 1 x y).trans majorLineCovers_of_eq

/-- A line with equal distances covers the diagonal between its ends, rising or falling (R143). -/
theorem lineCovers_diagonal {x0 y0 x y : Int} (n : Nat) {d : Int} (hd : d = 1 ∨ d = -1) :
    LineCovers x0 y0 (x0 + n) (y0 + d * n) 1 x y ↔ ∃ k : Nat, k ≤ n ∧ x = x0 + k ∧ y = y0 + d * k := by
  have hminor (k : Nat) (hk : k ≤ n) : lineMinor x0 y0 (x0 + n) (y0 + d * n) (x0 + k) = y0 + d * k := by
    have hdist : ((y0 + d * n - y0).natAbs : Int) = n := by rcases hd with rfl | rfl <;> omega
    rw [lineMinor, hdist, minorMoves_of_mul_eq (m := k) (by omega) (by ring) (by omega)]
    rcases hd with rfl | rfl <;> split <;> omega
  have hflat : (y0 + d * n - y0).natAbs ≤ (x0 + n - x0).natAbs := by rcases hd with rfl | rfl <;> omega
  rw [lineCovers_of_flat hflat, MajorLineCovers, or_iff_left (by omega), and_iff_right (by omega), upwardLineCovers_one]
  constructor
  · rintro ⟨h0, h1, rfl⟩
    obtain ⟨k, rfl⟩ : ∃ k : Nat, x = x0 + k := ⟨(x - x0).toNat, by omega⟩
    exact ⟨k, by omega, rfl, hminor k (by omega)⟩
  · rintro ⟨k, hk, rfl, rfl⟩
    exact ⟨by omega, by omega, (hminor k hk).symm⟩

/-! ### HLINE and VLINE -/

/-- On the panel the positions of `HLINE` are its row segment (R145, R146). -/
theorem mem_hlinePixels_iff_covers {x0 x1 row : Int} {x y : Nat} (hx : x < 128) (hy : y < 64) :
    ((x : Int), (y : Int)) ∈ hlinePixels x0 x1 row ↔ RowCovers x0 x1 row x y := by
  rw [mem_hlinePixels, RowCovers]
  omega

/-- On the panel the positions of `VLINE` are its column segment (R147). -/
theorem mem_vlinePixels_iff_covers {y0 y1 col : Int} {x y : Nat} (hx : x < 128) (hy : y < 64) :
    ((x : Int), (y : Int)) ∈ vlinePixels y0 y1 col ↔ ColumnCovers y0 y1 col x y := by
  rw [mem_vlinePixels, ColumnCovers]
  omega

/-- Settles O22: each special direction by its closed form. -/
theorem drawLineSpecialDirections : Obligations.DrawLineSpecialDirections := by
  refine ⟨fun x0 x1 y c s => ?_, fun x y0 y1 c s => ?_, fun x0 y0 n c s => ?_, fun x0 y0 n c s => ?_⟩
  · refine congrArg Host.Outcome.next (draw_eq_of_mem c s fun x y hx hy => ?_)
    rw [mem_linePixels, lineCovers_horizontal, mem_hlinePixels_iff_covers hx hy]
  · refine congrArg Host.Outcome.next (draw_eq_of_mem c s fun x y hx hy => ?_)
    rw [mem_linePixels, lineCovers_vertical, mem_vlinePixels_iff_covers hx hy]
  · refine ⟨_, rfl, (draw_spec c _ s _ fun x y _ _ => ?_).1⟩
    simpa using mem_linePixels.trans (lineCovers_diagonal n (d := 1) (.inl rfl))
  · refine ⟨_, rfl, (draw_spec c _ s _ fun x y _ _ => ?_).1⟩
    simpa [← sub_eq_add_neg] using mem_linePixels.trans (lineCovers_diagonal n (d := -1) (.inr rfl))

/-- Settles O23: a drawing operation with the positions of its row segment. -/
theorem hlineDrawsItsRowSegment : Obligations.HlineDrawsItsRowSegment := by
  refine ⟨fun a0 a1 a2 c => ?_, fun x0 x1 row c s =>
    ⟨_, rfl, draw_spec c _ s _ fun x y hx hy => mem_hlinePixels_iff_covers hx hy⟩⟩
  exact decode_of_encode_eq (by simp [Instr.wf, fitsSlot_toInt]) (by simp [encode, opcodeOf, slotOf_toInt])

/-- Settles O24: a drawing operation with the positions of its column segment. -/
theorem vlineDrawsItsColumnSegment : Obligations.VlineDrawsItsColumnSegment := by
  refine ⟨fun a0 a1 a2 c => ?_, fun y0 y1 col c s =>
    ⟨_, rfl, draw_spec c _ s _ fun x y hx hy => mem_vlinePixels_iff_covers hx hy⟩⟩
  exact decode_of_encode_eq (by simp [Instr.wf, fitsSlot_toInt]) (by simp [encode, opcodeOf, slotOf_toInt])

/-! ### The word form of VLINE -/

/-- A drawing operation of colour 0 clears in a column the rows it plots there (R119). -/
theorem word_plotAll_false {ps : List Pixel} {col : Nat} {m : Word} (fb : Frame) (hcol : col < 128)
    (h : ∀ y : Nat, y < 64 → (((col : Int), (y : Int)) ∈ ps ↔ m.getLsbD y = true)) :
    Frame.word (plotAll false ps fb) col = Frame.word fb col &&& ~~~m := by
  refine BitVec.eq_of_getLsbD_eq fun y hy => (pixel_plotAll false ps fb col y hcol hy).trans ?_
  rw [BitVec.getLsbD_and, BitVec.getLsbD_not, decide_eq_true hy]
  by_cases hm : m.getLsbD y = true
  · rw [if_pos ((h y hy).mpr hm), hm]; simp
  · rw [if_neg (mt (h y hy).mp hm), Bool.eq_false_iff.mpr hm, Frame.pixel]; simp

/-- A column without a plotted row keeps its word. -/
theorem word_plotAll_of_not_mem {ps : List Pixel} {col : Nat} (c : Colour) (fb : Frame) (hcol : col < 128)
    (h : ∀ y : Nat, y < 64 → ((col : Int), (y : Int)) ∉ ps) :
    Frame.word (plotAll c ps fb) col = Frame.word fb col :=
  BitVec.eq_of_getLsbD_eq fun y hy => (pixel_plotAll c ps fb col y hcol hy).trans (if_neg (h y hy))

/-- The mask of bits `a..b` (R148). -/
def rangeMask (a b : Nat) : Word := BitVec.ofNat 64 ((2 ^ (b - a + 1) - 1) * 2 ^ a)

theorem getLsbD_rangeMask {a b y : Nat} (hab : a ≤ b) (hy : y < 64) :
    (rangeMask a b).getLsbD y = true ↔ a ≤ y ∧ y ≤ b := by
  rw [rangeMask, BitVec.getLsbD_ofNat, Nat.testBit_mul_two_pow, Nat.testBit_two_pow_sub_one]
  simp only [Bool.and_eq_true, decide_eq_true_eq]
  omega

/-- Settles O25: the rows plotted in the column are the bits of the mask; in another column there are none. -/
theorem vlineWordForm : Obligations.VlineWordForm := by
  refine fun y0 y1 col c s hcol => ⟨_, rfl, fun x hx hne => ?_, fun hab => ?_, fun hempty => ?_⟩
  · refine word_plotAll_of_not_mem c s.fb hx fun y _ => ?_
    rw [mem_vlinePixels]; omega
  · have hmask (y : Nat) (hy : y < 64) : ((col : Int), (y : Int)) ∈ vlinePixels y0 y1 col ↔
        (rangeMask (max (min y0 y1) 0).toNat (min (max y0 y1) 63).toNat).getLsbD y = true := by
      rw [getLsbD_rangeMask (by omega) hy, mem_vlinePixels]
      omega
    cases c
    · exact word_plotAll_false s.fb hcol hmask
    · exact word_plotAll_true s.fb hcol hmask
  · refine word_plotAll_of_not_mem c s.fb hcol fun y _ => ?_
    rw [mem_vlinePixels]; omega

end Sys2Proof.Machine
end

section
/-! PROOFS. Rectangles and triangles (spec/41_shape_ops.md, R150 to R160): segments and lines joined, and the count of R151. -/

namespace Sys2Proof.Machine

/-! ### Rectangles -/

/-- The pixels of `DRAWRECT`: its four edges (R150). -/
def RectCovers (x0 y0 x1 y1 x y : Int) : Prop :=
  RowCovers x0 x1 y0 x y ∨ RowCovers x0 x1 y1 x y ∨ ColumnCovers y0 y1 x0 x y ∨ ColumnCovers y0 y1 x1 x y

theorem mem_rectPixels {x0 y0 x1 y1 : Int} {x y : Nat} (hx : x < 128) (hy : y < 64) :
    ((x : Int), (y : Int)) ∈ rectPixels x0 y0 x1 y1 ↔ RectCovers x0 y0 x1 y1 x y := by
  simp only [rectPixels, RectCovers, List.mem_append, mem_hlinePixels_iff_covers hx hy,
    mem_vlinePixels_iff_covers hx hy, or_assoc]

/-- Settles O26: a drawing operation with the positions of its four edges. -/
theorem drawRectDrawsItsFourEdges : Obligations.DrawRectDrawsItsFourEdges := by
  refine ⟨fun a0 a1 a2 a3 c => ?_, fun x0 y0 x1 y1 c s =>
    ⟨_, rfl, draw_spec c _ s _ fun x y hx hy => mem_rectPixels hx hy⟩⟩
  exact decode_of_encode_eq (by simp [Instr.wf, fitsSlot_toInt]) (by simp [encode, opcodeOf, slotOf_toInt])

/-- On a buffer that has nowhere the colour drawn, the pixels of the colour are those covered. -/
theorem pixel_eq_iff_of_paints {c : Colour} {covers : Int → Int → Prop} {fb fb' : Frame} (h : Paints c covers fb fb')
    (hclear : ∀ x y : Nat, x < 128 → y < 64 → Frame.pixel fb x y = !c) {x y : Nat} (hx : x < 128) (hy : y < 64) :
    Frame.pixel fb' x y = c ↔ covers x y := by
  obtain ⟨hcovered, hother⟩ := h x y hx hy
  refine ⟨fun hc => by_contra fun hn => ?_, hcovered⟩
  rw [hother hn, hclear x y hx hy] at hc
  exact Bool.not_ne_self c hc

/-- The pixels of a box that are not in its interior. -/
def outline (xlo ylo xhi yhi : Nat) : Finset (Nat × Nat) :=
  (Finset.Icc xlo xhi ×ˢ Finset.Icc ylo yhi) \ (Finset.Ioo xlo xhi ×ˢ Finset.Ioo ylo yhi)

theorem card_outline (xlo ylo xhi yhi : Nat) : (outline xlo ylo xhi yhi).card =
    (xhi + 1 - xlo) * (yhi + 1 - ylo) - (xhi - xlo - 1) * (yhi - ylo - 1) := by
  rw [outline, Finset.card_sdiff_of_subset (Finset.product_subset_product Finset.Ioo_subset_Icc_self
    Finset.Ioo_subset_Icc_self), Finset.card_product, Finset.card_product, Nat.card_Icc, Nat.card_Icc, Nat.card_Ioo,
    Nat.card_Ioo]

/-- The edges of a rectangle are the outline of its box. -/
theorem mem_outline_iff_rectCovers {x0 y0 x1 y1 x y : Nat} :
    (x, y) ∈ outline (min x0 x1) (min y0 y1) (max x0 x1) (max y0 y1) ↔ RectCovers x0 y0 x1 y1 x y := by
  simp only [outline, Finset.mem_sdiff, Finset.mem_product, Finset.mem_Icc, Finset.mem_Ioo, RectCovers, RowCovers,
    ColumnCovers]
  omega

/-- A box less its interior, by its width and height (R151). -/
theorem box_sub_interior (w h : Nat) : (w + 1) * (h + 1) - (w - 1) * (h - 1) =
    if 1 ≤ w ∧ 1 ≤ h then 2 * (w + h) else max w h + 1 := by
  obtain _ | w := w
  · simp
  obtain _ | h := h
  · simp
  have hbox : (w + 1 + 1) * (h + 1 + 1) = w * h + 2 * (w + 1 + (h + 1)) := by ring
  simp [hbox]

/-- The pixels of a set of panel positions are counted by the set, if they are those lit. -/
theorem litCount_eq_card {fb : Frame} {lit : Finset (Nat × Nat)} (hpanel : ∀ x y : Nat, (x, y) ∈ lit → x < 128 ∧ y < 64)
    (h : ∀ x y : Nat, x < 128 → y < 64 → (Frame.pixel fb x y = true ↔ (x, y) ∈ lit)) : litCount fb = lit.card := by
  unfold litCount
  apply congrArg Finset.card
  ext ⟨x, y⟩
  rw [Finset.mem_filter, Finset.mem_product, Finset.mem_range, Finset.mem_range]
  constructor
  · rintro ⟨⟨hx, hy⟩, hlit⟩
    exact (h x y hx hy).mp hlit
  · intro hm
    obtain ⟨hx, hy⟩ := hpanel x y hm
    exact ⟨⟨hx, hy⟩, (h x y hx hy).mpr hm⟩

/-- Settles O27: what is lit is the outline of the box, counted as the box less its interior. -/
theorem drawRectPixelCount : Obligations.DrawRectPixelCount := by
  intro x0 y0 x1 y1 s hx0 hy0 hx1 hy1 hclear
  obtain ⟨t, hexec, hpaints, -⟩ := drawRectDrawsItsFourEdges.2 x0 y0 x1 y1 true s
  refine ⟨t, hexec, ?_⟩
  have hdark (x y : Nat) (hx : x < 128) (_ : y < 64) : Frame.pixel s.fb x y = !true := by
    simp [Frame.pixel, hclear x hx]
  have hpanel (x y : Nat) (hm : (x, y) ∈ outline (min x0 x1) (min y0 y1) (max x0 x1) (max y0 y1)) :
      x < 128 ∧ y < 64 := by
    simp only [outline, Finset.mem_sdiff, Finset.mem_product, Finset.mem_Icc] at hm
    omega
  have hw : max x0 x1 - min x0 x1 = ((x1 : Int) - x0).natAbs := by omega
  have hh : max y0 y1 - min y0 y1 = ((y1 : Int) - y0).natAbs := by omega
  rw [litCount_eq_card hpanel fun x y hx hy =>
      (pixel_eq_iff_of_paints hpaints hdark hx hy).trans mem_outline_iff_rectCovers.symm,
    card_outline, Nat.sub_add_comm (by omega), Nat.sub_add_comm (by omega), hw, hh]
  exact box_sub_interior _ _

/-- Settles O28: the rows of the box are the row segments plotted. -/
theorem fillRectFillsItsBox : Obligations.FillRectFillsItsBox := by
  refine ⟨fun a0 a1 a2 a3 c => ?_, fun x0 y0 x1 y1 c s => ⟨_, rfl, draw_spec c _ s _ fun x y hx hy => ?_⟩⟩
  · exact decode_of_encode_eq (by simp [Instr.wf, fitsSlot_toInt]) (by simp [encode, opcodeOf, slotOf_toInt])
  · simp only [fillRectPixels, List.mem_flatMap, mem_intRange, mem_hlinePixels_iff_covers hx hy, RowCovers]
    constructor
    · rintro ⟨row, hrow, rfl, hcol⟩
      exact ⟨hcol.1, hcol.2, hrow⟩
    · rintro ⟨hlo, hhi, hrow⟩
      exact ⟨y, hrow, rfl, hlo, hhi⟩

/-! ### Triangles -/

theorem mem_triPixels {x0 y0 x1 y1 x2 y2 x y : Int} : (x, y) ∈ triPixels x0 y0 x1 y1 x2 y2 ↔
    LineCovers x0 y0 x1 y1 1 x y ∨ LineCovers x1 y1 x2 y2 1 x y ∨ LineCovers x2 y2 x0 y0 1 x y := by
  simp only [triPixels, List.mem_append, mem_linePixels, or_assoc]

/-- Rotating the vertices rotates the edges (R156). -/
theorem mem_triPixels_rotate {x0 y0 x1 y1 x2 y2 : Int} (p : Pixel) :
    p ∈ triPixels x0 y0 x1 y1 x2 y2 ↔ p ∈ triPixels x1 y1 x2 y2 x0 y0 := by
  simp only [triPixels, List.mem_append]
  rw [or_assoc, or_comm]

/-- Exchanging two vertices exchanges two edges and the ends of each (R143, R156). -/
theorem mem_triPixels_swap {x0 y0 x1 y1 x2 y2 : Int} (p : Pixel) :
    p ∈ triPixels x0 y0 x1 y1 x2 y2 ↔ p ∈ triPixels x1 y1 x0 y0 x2 y2 := by
  simp only [triPixels, List.mem_append]
  rw [linePixels_swap x0 y0 x1 y1, linePixels_swap x2 y2 x0 y0, linePixels_swap x1 y1 x2 y2, or_right_comm]

/-- Settles O29: the three lines in closed form; the edges as a set do not depend on the order of the vertices. -/
theorem drawTriDrawsItsThreeEdges : Obligations.DrawTriDrawsItsThreeEdges := by
  refine ⟨fun a0 a1 a2 a3 a4 a5 c => ?_, fun x0 y0 x1 y1 x2 y2 c s =>
    ⟨⟨_, rfl, draw_spec c _ s _ fun x y _ _ => mem_triPixels⟩, ?_, ?_⟩⟩
  · exact decode_of_encode_eq (by simp [Instr.wf, fitsSlot_toInt]) (by simp [encode, opcodeOf, slotOf_toInt])
  · exact congrArg Host.Outcome.next (draw_eq_of_mem c s fun x y _ _ => mem_triPixels_rotate _)
  · exact congrArg Host.Outcome.next (draw_eq_of_mem c s fun x y _ _ => mem_triPixels_swap _)

/-- The half-base is the quotient of the magnitudes, with the sign of the height (R159, R160). -/
theorem eqTriHalfBase_eq (height : Int) : eqTriHalfBase height =
    (if height < 0 then -1 else 1) * ((height.natAbs * 1732 / 2000 : Nat) : Int) := by
  unfold eqTriHalfBase Config.eqTriNum Config.eqTriDen
  obtain ⟨n, rfl | rfl⟩ := height.eq_nat_or_neg
  · rw [if_neg (by omega), Int.tdiv_eq_ediv_of_nonneg (by omega)]
    omega
  · rw [Int.neg_mul, Int.neg_tdiv, Int.tdiv_eq_ediv_of_nonneg (by omega)]
    split <;> omega

/-- Settles O30: the three lines in closed form, with the half-base of R159. -/
theorem drawEqTriDrawsItsThreeLines : Obligations.DrawEqTriDrawsItsThreeLines := by
  refine ⟨fun a0 a1 a2 a3 c => ?_, fun tipX tipY height width c s => ⟨_, rfl, fun hb hhb => ?_, ?_⟩⟩
  · exact decode_of_encode_eq (by simp [Instr.wf, fitsSlot_toInt]) (by simp [encode, opcodeOf, slotOf_toInt])
  · refine (draw_spec c _ s _ fun x y _ _ => ?_).1
    rw [← eqTriHalfBase_eq] at hhb
    simp only [eqTriPixels, List.mem_append, mem_linePixels, or_assoc, hhb]
  · exact (draw_spec c _ s (fun x y => (x, y) ∈ eqTriPixels tipX tipY height width) fun x y _ _ => Iff.rfl).2

end Sys2Proof.Machine
end

section
/-! PROOFS. Circles (spec/41_shape_ops.md, R163 to R169): the octant walk follows the circle, then what `DRAWCIRCLE` and
`FILLCIRCLE` make of its pairs. -/

namespace Sys2Proof.Machine

/-! ### The octant -/

/-- `b * b - b < y * y + y` says `b <= y`, where `b + y` is not negative. -/
theorem le_of_mul_self_sub_lt {b y : Int} (h0 : 0 ≤ b + y) (h : b * b - b < y * y + y) : b ≤ y := by
  by_contra hlt
  have hprod : 0 ≤ (b - y - 1) * (b + y) := mul_nonneg (by omega) h0
  linarith

/-- No circle pixel is farther from the centre than the radius (R163). -/
theorem OnOctant.le_radius {r a b : Int} (h : OnOctant r a b) : b ≤ r := by
  obtain ⟨ha, hab, ⟨rfl, rfl⟩ | ⟨hr, hlt, -⟩⟩ := h
  · exact le_rfl
  · exact le_of_mul_self_sub_lt (by omega) (by linarith [mul_self_nonneg a])

/-- The distance of an octant pair from the centre, squared (R163). -/
theorem OnOctant.dist_bounds {r a b : Int} (h : OnOctant r a b) :
    r * r - r ≤ a * a + b * b ∧ a * a + b * b ≤ r * r + r := by
  have hle := h.le_radius
  obtain ⟨ha, hab, ⟨rfl, rfl⟩ | ⟨-, hlt, hge⟩⟩ := h
  · obtain rfl : a = 0 := by omega
    exact ⟨le_rfl, le_rfl⟩
  · omega

/-- Each first coordinate has one second coordinate on the octant. -/
theorem OnOctant.unique {r a b b' : Int} (hr : 0 < r) (h : OnOctant r a b) (h' : OnOctant r a b') : b = b' := by
  obtain ⟨ha, hab, ⟨hr0, -⟩ | ⟨-, hlt, hge⟩⟩ := h
  · omega
  obtain ⟨-, hab', ⟨hr0, -⟩ | ⟨-, hlt', hge'⟩⟩ := h'
  · omega
  exact le_antisymm (le_of_mul_self_sub_lt (by omega) (by omega)) (le_of_mul_self_sub_lt (by omega) (by omega))

/-! ### The octant walk -/

/-- The loop of R163 between two steps: `d` is the midpoint's error, `y` is not too small for the circle, and while the loop
goes on it is not too large either. -/
structure WalkAt (r x y d : Int) : Prop where
  x_nonneg : 0 ≤ x
  sum_nonneg : 0 ≤ x + y
  error : d = (x + 1) * (x + 1) + y * y - y - r * r
  outside : r * r ≤ x * x + y * y + y
  inside : x ≤ y → x * x + y * y - y < r * r

theorem WalkAt.start {r : Int} (hr : 0 < r) : WalkAt r 0 r (1 - r) where
  x_nonneg := le_rfl
  sum_nonneg := by omega
  error := by ring
  outside := by omega
  inside _ := by omega

/-- The pair the loop is at is on the octant. -/
theorem WalkAt.onOctant {r x y d : Int} (h : WalkAt r x y d) (hr : 0 < r) (hxy : x ≤ y) : OnOctant r x y :=
  ⟨h.x_nonneg, hxy, .inr ⟨hr, h.inside hxy, h.outside⟩⟩

/-- A step that keeps `y` (R163). -/
theorem WalkAt.keep {r x y d : Int} (h : WalkAt r x y d) (hd : d < 0) :
    WalkAt r (x + 1) y (d + 2 * x + 3) := by
  obtain ⟨hx, hsum, herr, hout, hin⟩ := h
  exact ⟨by omega, by omega, by rw [herr]; ring, by linarith, fun _ => by omega⟩

/-- A step that moves `y` down (R163). -/
theorem WalkAt.down {r x y d : Int} (h : WalkAt r x y d) (hxy : x ≤ y) (hd : 0 ≤ d) :
    WalkAt r (x + 1) (y - 1) (d + 2 * (x - y) + 5) := by
  obtain ⟨hx, hsum, herr, hout, hin⟩ := h
  exact ⟨by omega, by omega, by rw [herr]; ring, by linarith, fun _ => by linarith [hin hxy]⟩

/-- Once the loop has ended no octant pair is ahead. -/
theorem WalkAt.not_onOctant {r x y d a b : Int} (h : WalkAt r x y d) (hr : 0 < r) (hyx : y < x) (ha : x ≤ a) :
    ¬ OnOctant r a b := by
  rintro ⟨ha0, hab, ⟨hr0, -⟩ | ⟨-, hlt, -⟩⟩
  · omega
  have hsq : x * x ≤ a * a := mul_self_le_mul_self h.x_nonneg ha
  have hby : b ≤ y := le_of_mul_self_sub_lt (by linarith [h.sum_nonneg]) (by linarith [h.outside])
  omega

/-- With steps enough to reach the diagonal the loop yields the octant pairs ahead (R163). -/
theorem mem_stepsLoop {r : Int} (hr : 0 < r) {n : Nat} {x y d : Int} (h : WalkAt r x y d) (hn : y < x + n) {a b : Int} :
    (a, b) ∈ stepsLoop n x y d ↔ x ≤ a ∧ OnOctant r a b := by
  induction n generalizing x y d with
  | zero =>
    refine ⟨fun hm => absurd hm List.not_mem_nil, fun ⟨ha, hab⟩ => absurd hab (h.not_onOctant hr ?_ ha)⟩
    omega
  | succ n ih =>
    unfold stepsLoop
    split
    · rename_i hxy
      have hrest : ((a, b) ∈ if d < 0 then stepsLoop n (x + 1) y (d + 2 * x + 3)
          else stepsLoop n (x + 1) (y - 1) (d + 2 * (x - y) + 5)) ↔ x + 1 ≤ a ∧ OnOctant r a b := by
        split
        · exact ih (h.keep ‹_›) (by omega)
        · exact ih (h.down hxy (by omega)) (by omega)
      rw [List.mem_cons, hrest, Prod.mk.injEq]
      constructor
      · rintro (⟨rfl, rfl⟩ | ⟨ha, hab⟩)
        · exact ⟨le_rfl, h.onOctant hr hxy⟩
        · exact ⟨by omega, hab⟩
      · rintro ⟨ha, hab⟩
        obtain rfl | hlt := ha.eq_or_lt
        · exact .inl ⟨rfl, hab.unique hr (h.onOctant hr hxy)⟩
        · exact .inr ⟨by omega, hab⟩
    · rename_i hxy
      exact ⟨fun hm => absurd hm List.not_mem_nil, fun ⟨ha, hab⟩ => absurd hab (h.not_onOctant hr (by omega) ha)⟩

/-- The walk of radius 0 is the centre; a negative radius has none (R163). -/
theorem circleSteps_zero : circleSteps 0 = [(0, 0)] := rfl

theorem circleSteps_of_neg {r : Int} (hr : r < 0) : circleSteps r = [] := by
  rw [circleSteps, Int.toNat_of_nonpos (by omega), stepsLoop]

/-- The walk yields exactly the octant (R163). -/
theorem mem_circleSteps {r a b : Int} : (a, b) ∈ circleSteps r ↔ OnOctant r a b := by
  obtain hneg | rfl | hpos := lt_trichotomy r 0
  · rw [circleSteps_of_neg hneg]
    refine ⟨fun hm => absurd hm List.not_mem_nil, ?_⟩
    rintro ⟨-, -, ⟨hr, -⟩ | ⟨hr, -⟩⟩ <;> omega
  · simp only [circleSteps_zero, List.mem_singleton, Prod.mk.injEq, OnOctant, lt_irrefl, false_and, or_false, true_and]
    omega
  · rw [circleSteps, mem_stepsLoop hpos (.start hpos) (by omega), and_iff_right_of_imp fun h => h.1]

/-- A bound that lets the loop reach the diagonal is not what ends it (R163). -/
theorem stepsLoop_eq_of_le {n m : Nat} {x y d : Int} (hn : y < x + n) (hnm : n ≤ m) :
    stepsLoop m x y d = stepsLoop n x y d := by
  induction n generalizing m x y d with
  | zero =>
    cases m with
    | zero => rfl
    | succ m => simp [stepsLoop, show ¬ x ≤ y by omega]
  | succ n ih =>
    obtain ⟨m, rfl⟩ : ∃ k, m = k + 1 := ⟨m - 1, by omega⟩
    simp only [stepsLoop]
    rw [ih (m := m) (by omega) (by omega), ih (m := m) (by omega) (by omega)]

/-- Settles O31: the loop's invariant at the start, the distance of an octant pair, and the bound on the loop. -/
theorem octantWalkFollowsTheCircle : Obligations.OctantWalkFollowsTheCircle :=
  ⟨fun _ _ _ => mem_circleSteps, fun _ _ _ h => (mem_circleSteps.mp h).dist_bounds,
    fun _ _ hn => stepsLoop_eq_of_le (by omega) hn⟩

/-! ### DRAWCIRCLE -/

/-- Two distances are an octant pair with the smaller first, whichever it is. -/
theorem onOctant_min_max {r u v : Int} : OnOctant r (min u v) (max u v) ↔ OnOctant r u v ∨ OnOctant r v u := by
  obtain hle | hle := le_total u v
  · rw [min_eq_left hle, max_eq_right hle, or_iff_left_of_imp]
    intro h
    obtain rfl := le_antisymm hle h.2.1
    exact h
  · rw [min_eq_right hle, max_eq_left hle, or_iff_right_of_imp]
    intro h
    obtain rfl := le_antisymm hle h.2.1
    exact h

/-- A circle pixel's distances from the centre are an octant pair, in one order or the other (R164). -/
theorem circleCovers_iff {cx cy r x y : Int} : CircleCovers cx cy r x y ↔
    OnOctant r (x - cx).natAbs (y - cy).natAbs ∨ OnOctant r (y - cy).natAbs (x - cx).natAbs := by
  rw [CircleCovers, Nat.cast_min, Nat.cast_max]
  exact onOctant_min_max

theorem natAbs_sub_eq_iff {v centre a : Int} (ha : 0 ≤ a) :
    ((v - centre).natAbs : Int) = a ↔ v = centre + a ∨ v = centre - a := by omega

/-- The eight mirror images of an octant pair are the positions with its coordinates as distances (R164). -/
theorem mem_octantPixels {cx cy a b x y : Int} (ha : 0 ≤ a) (hb : 0 ≤ b) : (x, y) ∈ octantPixels cx cy (a, b) ↔
    (((x - cx).natAbs : Int) = a ∧ ((y - cy).natAbs : Int) = b) ∨
    (((x - cx).natAbs : Int) = b ∧ ((y - cy).natAbs : Int) = a) := by
  simp only [octantPixels, List.mem_cons, List.not_mem_nil, or_false, Prod.mk.injEq, natAbs_sub_eq_iff ha,
    natAbs_sub_eq_iff hb, and_or_left]
  simp only [or_and_right, or_assoc]

/-- The positions of `DRAWCIRCLE` are its circle pixels (R164). -/
theorem mem_circlePixels {cx cy r x y : Int} : (x, y) ∈ circlePixels cx cy r ↔ CircleCovers cx cy r x y := by
  rw [circlePixels, List.mem_flatMap, circleCovers_iff]
  constructor
  · rintro ⟨⟨a, b⟩, hstep, hm⟩
    have hoct := mem_circleSteps.mp hstep
    obtain ⟨rfl, rfl⟩ | ⟨rfl, rfl⟩ := (mem_octantPixels hoct.1 (hoct.1.trans hoct.2.1)).mp hm
    · exact .inl hoct
    · exact .inr hoct
  · rintro (hoct | hoct)
    · exact ⟨_, mem_circleSteps.mpr hoct, (mem_octantPixels (by omega) (by omega)).mpr (.inl ⟨rfl, rfl⟩)⟩
    · exact ⟨_, mem_circleSteps.mpr hoct, (mem_octantPixels (by omega) (by omega)).mpr (.inr ⟨rfl, rfl⟩)⟩

/-- Settles O32: a drawing operation with the mirror images of the walk. -/
theorem drawCircleDrawsItsEightOctants : Obligations.DrawCircleDrawsItsEightOctants := by
  refine ⟨fun a0 a1 a2 c => ?_, fun cx cy r c s => ⟨_, rfl, draw_spec c _ s _ fun x y _ _ => mem_circlePixels⟩⟩
  exact decode_of_encode_eq (by simp [Instr.wf, fitsSlot_toInt]) (by simp [encode, opcodeOf, slotOf_toInt])

/-! ### FILLCIRCLE -/

/-- The four spans of an octant pair, on the panel (R168). -/
theorem mem_spanPixels {cx cy a b : Int} (ha : 0 ≤ a) (hab : a ≤ b) {x y : Nat} (hx : x < 128) (hy : y < 64) :
    ((x : Int), (y : Int)) ∈ spanPixels cx cy (a, b) ↔
      (((y - cy).natAbs : Int) = b ∧ ((x - cx).natAbs : Int) ≤ a) ∨
      (((y - cy).natAbs : Int) = a ∧ ((x - cx).natAbs : Int) ≤ b) := by
  simp only [spanPixels, List.mem_append, mem_hlinePixels_iff_covers hx hy, RowCovers]
  omega

/-- The circle pixels of a row at the distance `u` from the centre column (R164). -/
theorem circleCovers_at {cx cy r u y : Int} (hu : 0 ≤ u) : CircleCovers cx cy r (cx + u) y ↔
    OnOctant r u (y - cy).natAbs ∨ OnOctant r (y - cy).natAbs u := by
  rw [circleCovers_iff, add_sub_cancel_left, Int.natAbs_of_nonneg hu]

/-- The positions of `FILLCIRCLE` on the panel are its disc (R168). -/
theorem mem_fillCirclePixels {cx cy r : Int} {x y : Nat} (hx : x < 128) (hy : y < 64) :
    ((x : Int), (y : Int)) ∈ fillCirclePixels cx cy r ↔ DiscCovers cx cy r x y := by
  rw [fillCirclePixels, List.mem_flatMap, DiscCovers]
  constructor
  · rintro ⟨⟨a, b⟩, hstep, hm⟩
    have hoct := mem_circleSteps.mp hstep
    have hbounds : 0 ≤ a ∧ a ≤ b := ⟨hoct.1, hoct.2.1⟩
    obtain ⟨hrow, hcol⟩ | ⟨hrow, hcol⟩ := (mem_spanPixels hbounds.1 hbounds.2 hx hy).mp hm
    · exact ⟨a, hcol, (circleCovers_at hbounds.1).mpr (.inl (hrow ▸ hoct))⟩
    · exact ⟨b, hcol, (circleCovers_at (by omega)).mpr (.inr (hrow ▸ hoct))⟩
  · rintro ⟨u, hcol, hcirc⟩
    obtain hoct | hoct := (circleCovers_at (by omega)).mp hcirc
    · exact ⟨_, mem_circleSteps.mpr hoct, (mem_spanPixels hoct.1 hoct.2.1 hx hy).mpr (.inl ⟨rfl, hcol⟩)⟩
    · exact ⟨_, mem_circleSteps.mpr hoct, (mem_spanPixels hoct.1 hoct.2.1 hx hy).mpr (.inr ⟨rfl, hcol⟩)⟩

/-- Settles O33: a drawing operation with the spans of the walk. -/
theorem fillCircleFillsBetweenCirclePixels : Obligations.FillCircleFillsBetweenCirclePixels := by
  refine ⟨fun a0 a1 a2 c => ?_, fun cx cy r c s =>
    ⟨_, rfl, draw_spec c _ s _ fun x y hx hy => mem_fillCirclePixels hx hy⟩⟩
  exact decode_of_encode_eq (by simp [Instr.wf, fitsSlot_toInt]) (by simp [encode, opcodeOf, slotOf_toInt])

/-! ### The disc has no holes -/

/-- The walk passes every value between its coordinates, in one coordinate or the other: no row is left out (R169). -/
theorem exists_mem_stepsLoop {n : Nat} {x y d v : Int} (hn : y < x + n) (hxv : x ≤ v) (hvy : v ≤ y) :
    ∃ a b, (a, b) ∈ stepsLoop n x y d ∧ (v = a ∨ v = b) := by
  induction n generalizing x y d with
  | zero => omega
  | succ n ih =>
    rw [stepsLoop, if_pos (by omega)]
    by_cases hv : v = x ∨ v = y
    · exact ⟨x, y, List.mem_cons_self, hv⟩
    · have hrest : ∃ a b, ((a, b) ∈ if d < 0 then stepsLoop n (x + 1) y (d + 2 * x + 3)
          else stepsLoop n (x + 1) (y - 1) (d + 2 * (x - y) + 5)) ∧ (v = a ∨ v = b) := by
        split
        · exact ih (by omega) (by omega) (by omega)
        · exact ih (by omega) (by omega) (by omega)
      obtain ⟨a, b, hm, hab⟩ := hrest
      exact ⟨a, b, List.mem_cons_of_mem _ hm, hab⟩

/-- Every distance up to the radius is a coordinate of an octant pair (R169). -/
theorem exists_onOctant {r v : Int} (h0 : 0 ≤ v) (hv : v ≤ r) : ∃ u, 0 ≤ u ∧ (OnOctant r u v ∨ OnOctant r v u) := by
  obtain ⟨a, b, hm, hab⟩ := exists_mem_stepsLoop (n := (r + 1).toNat) (d := 1 - r) (by omega) h0 hv
  have hoct : OnOctant r a b := mem_circleSteps.mp hm
  obtain rfl | rfl := hab
  · exact ⟨b, hoct.1.trans hoct.2.1, .inr hoct⟩
  · exact ⟨a, hoct.1, .inl hoct⟩

/-- A circle pixel is in the disc (R169). -/
theorem CircleCovers.disc {cx cy r x y : Int} (h : CircleCovers cx cy r x y) : DiscCovers cx cy r x y := by
  refine ⟨(x - cx).natAbs, le_rfl, ?_⟩
  have habs : (cx + ((x - cx).natAbs : Int) - cx).natAbs = (x - cx).natAbs := by omega
  rwa [CircleCovers, habs]

/-- The disc's rows are within the radius (R169). -/
theorem DiscCovers.row_le {cx cy r x y : Int} (h : DiscCovers cx cy r x y) : ((y - cy).natAbs : Int) ≤ r := by
  obtain ⟨u, -, hcirc⟩ := h
  have hle := hcirc.le_radius
  omega

/-- A row of the disc holds what is nearer to the centre column (R169). -/
theorem DiscCovers.nearer {cx cy r x x' y : Int} (h : DiscCovers cx cy r x y)
    (hx : (x' - cx).natAbs ≤ (x - cx).natAbs) : DiscCovers cx cy r x' y := by
  obtain ⟨u, hu, hcirc⟩ := h
  exact ⟨u, by omega, hcirc⟩

/-- The centre column of the disc (R169). -/
theorem discCovers_centre {cx cy r y : Int} (hy : ((y - cy).natAbs : Int) ≤ r) : DiscCovers cx cy r cx y := by
  obtain ⟨u, hu, hoct⟩ := exists_onOctant (by omega) hy
  exact ⟨u, by omega, (circleCovers_at hu).mpr hoct⟩

/-- Settles O34: on such a buffer the pixels of the colour are those covered, so each clause is one of the disc's. -/
theorem discHasNoHoles : Obligations.DiscHasNoHoles := by
  intro cx cy r c s hclear
  obtain ⟨circle, hexecCircle, hcircle, -⟩ := drawCircleDrawsItsEightOctants.2 cx cy r c s
  obtain ⟨disc, hexecDisc, hdisc, -⟩ := fillCircleFillsBetweenCirclePixels.2 cx cy r c s
  refine ⟨circle, disc, hexecCircle, hexecDisc, fun x y hx hy => ?_⟩
  rw [pixel_eq_iff_of_paints hcircle hclear hx hy, pixel_eq_iff_of_paints hdisc hclear hx hy]
  refine ⟨CircleCovers.disc, fun h => ⟨h.row_le, fun x' hx' hnear => ?_⟩, ?_⟩
  · exact (pixel_eq_iff_of_paints hdisc hclear hx' hy).mpr (h.nearer hnear)
  · rintro rfl hrow
    exact discCovers_centre hrow

end Sys2Proof.Machine
end

section
/-! PROOFS. Text (spec/42_text_ops.md, R180 to R188): the words of `DRAWCHAR` and `DRAWTEXT`, then the positions of a glyph and of
a text. -/

namespace Sys2Proof.Machine

/-! ### Words with an unsigned byte operand -/

/-- A word with an operation's opcode that breaks another field of its row is no command (R87, R92). -/
theorem decode_of_opcodeField_of_not_rowFields {op : Operation} {c : Command} (hopc : opcodeField c.cw = op.opcode)
    (hrow : ¬ rowFields op c.cw) : decode c = .error .noRow := by
  refine decode_of_no_rowFields fun op' hrow' => hrow ?_
  obtain rfl : op' = op := Operation.opcode_inj ((opcodeField_of_rowFields hrow').symm.trans hopc)
  exact hrow'

/-- The word of `DRAWCHAR` is in its row exactly if its character fits a byte (R85, R184). -/
theorem rowFields_drawChar_word (a0 a1 a2 : BitVec 16) :
    rowFields .drawChar (commandWord 0x20 false a0 a1 a2 0 0 0) ↔ a0.toNat ≤ 255 := by
  simp [rowFields, fields_commandWord, highByte_eq_zero_iff]

/-- The word of `DRAWTEXT` is in its row exactly if its length fits a byte (R85, R187). -/
theorem rowFields_drawText_word (a0 a1 a2 : BitVec 16) :
    rowFields .drawText (commandWord 0x21 false a0 a1 a2 0 0 0) ↔ a2.toNat ≤ 255 := by
  simp [rowFields, fields_commandWord, highByte_eq_zero_iff]

/-- The word of `DRAWCHAR` asks for a character that fits a byte and for no payload (R86, R184). -/
theorem decode_drawChar_word (a0 a1 a2 : BitVec 16) : decode ⟨commandWord 0x20 false a0 a1 a2 0 0 0, []⟩ =
    if a0.toNat ≤ 255 then .ok (.drawChar (BitVec.ofNat 8 a0.toNat) a1.toInt a2.toInt) else .error .noRow := by
  have hrow := rowFields_drawChar_word a0 a1 a2
  split
  case isTrue h =>
    refine decode_eq_ok_iff.mpr ⟨.drawChar, hrow.mpr h, rfl, ?_⟩
    simp [assemble, operand, byteOperand, fields_commandWord]
  case isFalse h =>
    exact decode_of_opcodeField_of_not_rowFields (fields_commandWord ..).1 (mt hrow.mp h)

/-- The word of `DRAWTEXT` asks for a length that fits a byte and for a payload of that length (R90, R187). -/
theorem decode_drawText_word (a0 a1 a2 : BitVec 16) (pl : List Byte) :
    decode ⟨commandWord 0x21 false a0 a1 a2 0 0 0, pl⟩ =
      if 255 < a2.toNat then .error .noRow
      else if pl.length = a2.toNat then .ok (.drawText pl a0.toInt a1.toInt) else .error .payloadLength := by
  have hrow := rowFields_drawText_word a0 a1 a2
  split
  case isTrue h =>
    exact decode_of_opcodeField_of_not_rowFields (fields_commandWord ..).1 (mt hrow.mp (by omega))
  case isFalse h =>
    have hlen : (a2.setWidth 8).toNat = a2.toNat := by
      rw [BitVec.toNat_setWidth]
      omega
    rw [decode_of_rowFields (hrow.mpr (by omega))]
    simp only [requiredLength, assemble, operand, byteOperand, fields_commandWord, hlen]

/-! ### DRAWCHAR -/

/-- The bits of a glyph at `(px, py)` (R180, R182, R184). -/
def GlyphCovers (font : FontTable) (c : Byte) (px py x y : Int) : Prop :=
  ∃ i b : Nat, i < 8 ∧ b < 8 ∧ (fontByte font c i).getLsbD b = true ∧ x = px + i ∧ y = py + b

/-- Byte `i` of a glyph is column `i` of its character in the font (R180). -/
theorem byteAt_glyph (font : FontTable) (c : Byte) {i : Nat} (hi : i < 8) :
    byteAt (glyph font c) i = fontByte font c i := by
  simp [byteAt, glyph, hi]

/-- The positions of a character are the bits of its glyph (R184). -/
theorem mem_charPixels {font : FontTable} {c : Byte} {px py x y : Int} :
    (x, y) ∈ charPixels font c px py ↔ GlyphCovers font c px py x y := by
  rw [charPixels, mem_bitmapPixels]
  exact exists₂_congr fun i b => and_congr_right fun hi => by rw [byteAt_glyph font c hi]

/-- Settles O35: the word's row, the positions of the glyph, and the bitmap that `DRAWCHAR` is defined by. -/
theorem drawCharBlitsItsGlyph : Obligations.DrawCharBlitsItsGlyph := by
  refine ⟨decode_drawChar_word, fun c px py s => ⟨_, rfl, ?_⟩⟩
  obtain ⟨hpaints, hended, hsame⟩ :=
    draw_spec true (charPixels s.font c px py) s (GlyphCovers s.font c px py) fun x y _ _ => mem_charPixels
  exact ⟨hpaints, hended, hsame, rfl⟩

/-! ### DRAWTEXT -/

/-- The bits of a text are those of its glyphs, six columns apart (R187). -/
theorem textCovers_iff {font : FontTable} {text : List Byte} {px py x y : Int} : TextCovers font text px py x y ↔
    ∃ j : Nat, j < text.length ∧ GlyphCovers font (text.getD j 0) (px + 6 * j) py x y := by
  simp only [TextCovers, GlyphCovers, exists_and_left]

/-- The positions of a text are the bits of its glyphs (R187, R188). -/
theorem mem_textPixels {font : FontTable} {text : List Byte} {px py x y : Int} :
    (x, y) ∈ textPixels font text px py ↔ TextCovers font text px py x y := by
  simp only [textPixels, List.mem_flatMap, List.mem_range, mem_charPixels, textCovers_iff, byteAt, Config.textPitch]

/-- From a start in the window `DRAWTEXT` draws the positions of its text (R187). -/
theorem exec_drawText_in_window {px py : Int} (h : 0 ≤ px ∧ px ≤ 127 ∧ 0 ≤ py ∧ py ≤ 55)
    (text : List Byte) (s : State) :
    exec (.drawText text px py) s = .next (draw true (textPixels s.font text px py) s) :=
  if_pos (inTextWindow_iff.mpr h)

/-- From any other start `DRAWTEXT` raises `TEXT_REJECTED`, whatever the text (R187). -/
theorem exec_drawText_off_window {px py : Int} (h : px < 0 ∨ px > 127 ∨ py < 0 ∨ py > 55)
    (text : List Byte) (s : State) :
    exec (.drawText text px py) s = .next (raise .textRejected s) :=
  if_neg (mt inTextWindow_iff.mp (by omega))

/-- A rejected text ends with its record and leaves all besides `ST` as it was (R187, R271). -/
theorem raise_textRejected_frame (s : State) : (raise .textRejected s).fb = s.fb ∧
    EndedWith 0x00000001#32 s (raise .textRejected s) ∧ SameBesidesFb s (raise .textRejected s) := by
  have hrecord : recordOf .textRejected = 0x00000001#32 := by decide
  exact ⟨rfl, by simp [EndedWith, hrecord], by simp [SameBesidesFb]⟩

/-- Settles O36: the word's row, then the two sides of the window. -/
theorem drawTextDrawsEveryCharacterOrRejectsTheText : Obligations.DrawTextDrawsEveryCharacterOrRejectsTheText := by
  refine ⟨decode_drawText_word, fun text px py s hx0 hx1 hy0 hy1 => ?_, fun text px py s h => ?_⟩
  · exact ⟨_, exec_drawText_in_window ⟨hx0, hx1, hy0, hy1⟩ text s, draw_spec true _ s _ fun x y _ _ => mem_textPixels⟩
  · exact ⟨_, exec_drawText_off_window h text s, raise_textRejected_frame s⟩

end Sys2Proof.Machine
end

section
/-! PROOFS. The serializer (spec/43_render_op.md, R200 to R212): what `RENDER` does with its operands, what each answer of the sink
makes a waiting `RENDER` do, and whole runs with a good sink and up to the first wrong answer. -/

namespace Sys2Proof.Machine

/-! ### The page operands -/

/-- Ending a command with a code leaves everything as it was but what the record goes to (R271). -/
theorem raise_frame (code : Completion) (s : State) : (raise code s).fb = s.fb ∧
    EndedWith (recordOf code) s (raise code s) ∧ SameBesidesFb s (raise code s) := by
  simp [EndedWith, SameBesidesFb]

/-- An operand outside `[0,7]` raises `PAGE_RANGE`, whatever the other one is (R201). -/
theorem exec_render_off_range {v w : Int} (h : v < 0 ∨ v > 7 ∨ w < 0 ∨ w > 7) (s : State) :
    exec (.render v w) s = .next (raise .pageRange s) := by
  simp only [exec, execRender]
  split
  · next p e hp he =>
    have hv : ¬ (v < 0 ∨ v > 7) := by rw [← pageOf_eq_none_iff, hp]; exact Option.some_ne_none p
    have hw : ¬ (w < 0 ∨ w > 7) := by rw [← pageOf_eq_none_iff, he]; exact Option.some_ne_none e
    omega
  · rfl

/-- A range that holds no page completes `OK` at once (R202). -/
theorem exec_render_of_lt {p e : Fin 8} (h : e < p) (s : State) :
    exec (.render p.val e.val) s = .next (completeOk s) := by
  simp only [exec, execRender, pageOf_val, if_neg (not_le.mpr h)]

/-- A range that holds a page sends the triad of its first page (R207). -/
theorem exec_render_of_le {p e : Fin 8} (h : p ≤ e) (s : State) :
    exec (.render p.val e.val) s = .next (sendTriad p e s) := by
  simp only [exec, execRender, pageOf_val, if_pos h]

/-- Settles O37: the record of `PAGE_RANGE` is the only thing such a command leaves. -/
theorem renderChecksBothPages : Obligations.RenderChecksBothPages := by
  intro p e s h
  have hrecord : recordOf .pageRange = 0x00000002#32 := by decide
  exact ⟨_, exec_render_off_range h s, hrecord ▸ raise_frame .pageRange s⟩

/-- Settles O38: an empty range ends like any command that completes `OK`. -/
theorem renderOfAnEmptyRangeCompletesOk : Obligations.RenderOfAnEmptyRangeCompletesOk := by
  intro p e s h
  exact ⟨_, exec_render_of_lt h s, rfl, completeOk_withFb_frame s.fb s⟩

/-! ### Sending a transaction -/

/-- Sending a triad, in the bytes of R204 and R30. -/
theorem sendTriad_eq (p e : Fin 8) (s : State) : sendTriad p e s =
    { s with
      cur := BitVec.ofNat 24 (0x1000B0 + p.val)
      rs := .curWait p e
      transactions := s.transactions ++ [[BitVec.ofNat 8 (0xB0 + p.val), 0x00, 0x10]] } := by
  rw [sendTriad, emit, curOf_cursorTriad, cursorTriad_eq]

/-- Sending a data frame, in the bytes of R205. -/
theorem sendData_eq (p e : Fin 8) (s : State) : sendData p e s =
    { s with
      rs := .dataWait p e
      transactions := s.transactions ++ [0x40 :: (List.range 128).map fun x =>
        BitVec.ofNat 8 ((Frame.word s.fb x).toNat / 2 ^ (8 * p.val) % 256)] } := by
  rw [sendData, emit, dataFrame_eq]

/-- The word of `RENDER` holds its two pages in slots 0 and 1 (R86). -/
theorem decode_render_word (a0 a1 : BitVec 16) :
    decode ⟨commandWord 0x30 false a0 a1 0 0 0 0, []⟩ = .ok (.render a0.toInt a1.toInt) :=
  decode_of_encode_eq (by simp [Instr.wf, fitsSlot_toInt]) (by simp [encode, opcodeOf, slotOf_toInt])

/-- Settles O39: the word's row, then the triad of the first page. -/
theorem renderEmitsTheFirstTriad : Obligations.RenderEmitsTheFirstTriad := by
  refine ⟨decode_render_word, fun p e s h => ?_⟩
  rw [exec_render_of_le h, sendTriad_eq]

/-- Settles O40: the answer 3 sends the data frame. -/
theorem triadTakenSendsTheDataFrame : Obligations.TriadTakenSendsTheDataFrame := by
  intro p e s more hi hr ha
  rw [step_triadTaken hi hr ha, sendData_eq]

/-- Settles O41: the answer 129 sends the next triad, or ends the command after the last page. -/
theorem dataFrameTakenGoesOnOrCompletes : Obligations.DataFrameTakenGoesOnOrCompletes := by
  intro p e s more hi hr ha
  refine ⟨fun q hq hpe => ?_, ?_⟩
  · obtain rfl : q = p + 1 := Fin.ext (hq.trans (Fin.val_add_one_of_lt (hpe.trans_le (Fin.le_last e))).symm)
    rw [step_dataTaken_of_lt hi hr ha hpe, sendTriad_eq]
  · rintro rfl
    exact ⟨_, step_dataTaken_last hi hr ha, rfl, completeOk_withFb_frame s.fb { s with answers := more }⟩

/-! ### The record of a failed transaction -/

/-- The phase whose bit in the record is this (R29). -/
def phaseOf (data : Bool) : Phase := if data then .data else .triad

@[simp] theorem phaseField_phaseOf (data : Bool) : phaseField (phaseOf data) = data := by cases data <;> rfl

/-- Two words joined, in a width that may be larger: the lower one, and the upper one shifted above it. -/
theorem setWidth_append_eq_or {v w : Nat} (k : Nat) (x : BitVec v) (y : BitVec w) :
    (x ++ y).setWidth k = y.setWidth k ||| x.setWidth k <<< w := by
  refine BitVec.eq_of_getLsbD_eq fun i hi => ?_
  by_cases h : i < w
  · simp [BitVec.getLsbD_append, h]
  · simp [BitVec.getLsbD_append, h, hi, BitVec.getLsbD_of_ge y i (by omega)]

/-- A record as its fields shifted to their places and joined by OR (R29). -/
theorem recordWord_eq_or (fail : Bool) (actual expected : Byte) (page : BitVec 3) (phase : Bool) (code : BitVec 4) :
    recordWord fail actual expected page phase code =
      code.setWidth 32 ||| (BitVec.ofBool phase).setWidth 32 <<< 4 ||| page.setWidth 32 <<< 5 |||
        expected.setWidth 32 <<< 8 ||| actual.setWidth 32 <<< 16 ||| (BitVec.ofBool fail).setWidth 32 <<< 24 := by
  calc recordWord fail actual expected page phase code
    _ = (0#7 ++ BitVec.ofBool fail ++ actual ++ expected ++ page ++ BitVec.ofBool phase ++ code).setWidth 32 :=
      (BitVec.setWidth_eq _).symm
    _ = _ := by
      simp only [setWidth_append_eq_or]
      simp only [BitVec.shiftLeft_or_distrib, ← BitVec.shiftLeft_add, Nat.reduceAdd, BitVec.setWidth_zero,
        BitVec.zero_shiftLeft, BitVec.or_zero, BitVec.or_assoc]

/-- The record the block builds for an answer inside the interface is the word of R208. -/
theorem recordOf_sinkError {data : Bool} {len : Nat} {a : SinkAnswer} (p : Fin 8) (hlen : len < 256)
    (ha : LegalAnswer len a) : recordOf (.sinkError (phaseOf data) p len a) = sinkErrorWord data p len a := by
  have hbyte {n : Nat} (hn : n < 256) : (BitVec.ofNat 8 n).setWidth 32 = BitVec.ofNat 32 n :=
    BitVec.setWidth_ofNat_of_le_of_lt (by decide) hn
  have hpage : (BitVec.ofNat 3 p.val).setWidth 32 = BitVec.ofNat 32 p.val :=
    BitVec.setWidth_ofNat_of_le_of_lt (by decide) p.isLt
  have hphase : (BitVec.ofBool data).setWidth 32 = BitVec.ofNat 32 data.toNat := by cases data <;> rfl
  rw [recordOf, recordWord_eq_or, phaseField_phaseOf, hbyte hlen, hpage, hphase]
  obtain rfl | ⟨n, hn, rfl⟩ := ha
  · rfl
  · rw [actualField, hbyte (by omega)]; rfl

/-! ### One wrong answer -/

/-- The run state in which `RENDER` waits for the answer to the data frame of page `p`, or to its triad (R209). -/
def waitState (data : Bool) (p endPage : Fin 8) : RunState := if data then .dataWait p endPage else .curWait p endPage

/-- The length of a data frame, or of a triad: what the sink answers when it took it (R203, R204, R205). -/
def transactionLength (data : Bool) : Nat := if data then 129 else 3

/-- An answer other than the length requested ends `RENDER` in that step (R208, R209). -/
theorem step_wrongAnswer {data : Bool} {p e : Fin 8} {s : State} {a : SinkAnswer} {more : List SinkAnswer}
    (hi : s.resetIn = false) (hr : s.rs = waitState data p e) (ha : s.answers = a :: more)
    (hwrong : a ≠ .took (transactionLength data)) :
    step s = .next (raise (.sinkError (phaseOf data) p (transactionLength data) a) { s with answers := more }) := by
  cases data with
  | false =>
    have hne : a ≠ .took triadLength := hwrong
    rw [step_of_curWait hi hr, triadAnswered_eq, answered_cons ha, triadEffect, if_neg hne]; rfl
  | true =>
    have hne : a ≠ .took dataFrameLength := hwrong
    rw [step_of_dataWait hi hr, dataAnswered_eq, answered_cons ha, dataEffect, if_neg hne]; rfl

/-- The record of a transaction of one of the two lengths (R208). -/
theorem recordOf_wrongAnswer {data : Bool} {a : SinkAnswer} (p : Fin 8) (ha : LegalAnswer (transactionLength data) a) :
    recordOf (.sinkError (phaseOf data) p (transactionLength data) a) =
      sinkErrorWord data p (transactionLength data) a :=
  recordOf_sinkError p (by cases data <;> decide) ha

/-- Settles O42: the step raises `SINK_ERROR`, whose record is the word of R208. -/
theorem wrongAnswerEndsWithSinkError : Obligations.WrongAnswerEndsWithSinkError := by
  intro p e data s a more hi hr ha hlegal hwrong
  exact ⟨_, step_wrongAnswer hi hr ha hwrong, recordOf_wrongAnswer p hlegal ▸ raise_frame _ { s with answers := more }⟩

/-! ### A silent sink -/

/-- A state that a step leads back to is there after any number of steps. -/
theorem stepN_of_step_self {s : State} (h : step s = .next s) (k : Nat) : stepN k s = .next s := by
  induction k with
  | zero => rfl
  | succ k ih => rw [stepN_succ h, ih]

/-- Settles O43: with no answer each step of a waiting `RENDER` leads back to its state. -/
theorem renderWaitsForASilentSink : Obligations.RenderWaitsForASilentSink := by
  intro p e s k hi hr ha
  refine stepN_of_step_self ?_ k
  obtain hr | hr := hr
  · rw [step_of_curWait hi hr, triadAnswered_eq, answered_nil ha]
  · rw [step_of_dataWait hi hr, dataAnswered_eq, answered_nil ha]

/-! ### A good sink -/

/-- The lengths of the transactions of a page do not depend on what it holds (R204, R205). -/
theorem map_length_renderTransactions (fb : Frame) (p e : Fin 8) :
    (renderTransactions fb p e).map List.length = (pageRange p e).flatMap fun _ => [3, 129] := by
  simp [renderTransactions, List.map_flatMap, pageTransactions]

/-- Two transactions a page (R207). -/
theorem length_renderTransactions (fb : Frame) {p e : Fin 8} (h : p ≤ e) :
    (renderTransactions fb p e).length = 2 * (e.val - p.val + 1) := by
  rw [← List.length_map (f := List.length), map_length_renderTransactions]
  revert p e; decide

/-- 132 bytes a page (R211). -/
theorem sum_length_renderTransactions (fb : Frame) {p e : Fin 8} (h : p ≤ e) :
    ((renderTransactions fb p e).map List.length).sum = 132 * (e.val - p.val + 1) := by
  rw [map_length_renderTransactions]
  revert p e; decide

/-- Settles O44: the first step sends the first triad, then each page takes two steps. -/
theorem renderWithAGoodSinkSendsEveryPage : Obligations.RenderWithAGoodSinkSendsEveryPage := by
  intro p e s c rest more hpe hi hr hc hd ha
  refine ⟨length_renderTransactions s.fb hpe, sum_length_renderTransactions s.fb hpe, ?_⟩
  have hrun : stepN (1 + 2 * (e.val - p.val + 1)) s = .next (renderDone p e more (accept c rest s)) :=
    (stepN_add (stepN_succ (step_render hpe hi hr hc hd))).trans
      (stepN_sendTriad (Nat.add_sub_of_le hpe).symm hi ha)
  exact ⟨_, hrun, rfl, (completeOk_withFb_frame s.fb _).1, rfl, rfl, rfl, rfl, curOf_cursorTriad e⟩

/-! ### A sink whose first wrong answer is to transaction `m` -/

/-- What a `RENDER` from page `p` is when its transaction number `m`, of page `q`, awaits its answer, from the state before its
first triad: transactions 0 to `m` are emitted, `CUR` names page `q`, and the answers still to come are `rest` (R209, R210). -/
def renderAwaits (p e q : Fin 8) (m : Nat) (rest : List SinkAnswer) (s : State) : State :=
  { s with
    answers := rest
    cur := curOf (cursorTriad q)
    rs := waitState (m % 2 == 1) q e
    transactions := s.transactions ++ (renderTransactions s.fb p e).take (m + 1) }

/-- The transactions of a range begin with those of its first page (R207). -/
theorem exists_renderTransactions_eq (fb : Frame) {p e : Fin 8} (h : p ≤ e) :
    ∃ others, renderTransactions fb p e = cursorTriad p :: dataFrame fb p :: others := by
  obtain rfl | hlt := h.eq_or_lt
  · exact ⟨[], by rw [renderTransactions_self, pageTransactions_eq]⟩
  · exact ⟨_, by rw [renderTransactions_of_lt fb hlt, pageTransactions_eq]; rfl⟩

/-- A `RENDER` that has sent its first triad awaits the answer to transaction 0. -/
theorem sendTriad_eq_renderAwaits {p e : Fin 8} (h : p ≤ e) (s : State) :
    sendTriad p e s = renderAwaits p e p 0 s.answers s := by
  obtain ⟨others, hothers⟩ := exists_renderTransactions_eq s.fb h
  rw [renderAwaits, hothers]; rfl

/-- A `RENDER` that has sent its first data frame awaits the answer to transaction 1. -/
theorem sendData_eq_renderAwaits {p e : Fin 8} (h : p ≤ e) (rest : List SinkAnswer) (s : State) :
    sendData p e { sendTriad p e s with answers := rest } = renderAwaits p e p 1 rest s := by
  obtain ⟨others, hothers⟩ := exists_renderTransactions_eq s.fb h
  rw [renderAwaits, hothers, sendData, emit, sendTriad_transactions, List.append_assoc]; rfl

/-- A page that is not the last moves the count of transactions on by two. -/
theorem renderAwaits_pageSent {p e : Fin 8} (h : p < e) (q : Fin 8) (m : Nat) (rest more : List SinkAnswer) (s : State) :
    renderAwaits (p + 1) e q m rest (pageSent p more s) = renderAwaits p e q (m + 2) rest s := by
  rw [renderAwaits, renderAwaits, renderTransactions_of_lt s.fb h, Nat.add_mod_right, pageTransactions_eq]
  rw [pageSent, pageTransactions_eq, List.append_assoc]; rfl

/-- While the answers are right a `RENDER` hands over one more transaction in each step, two for each page (R209, R210). -/
theorem stepN_sendTriad_awaits {m n : Nat} {p e q : Fin 8} {s : State} {rest : List SinkAnswer} (hn : e.val = p.val + n)
    (hm : m < 2 * (n + 1)) (hq : q.val = p.val + m / 2) (hi : s.resetIn = false)
    (ha : s.answers = (goodAnswers (n + 1)).take m ++ rest) :
    stepN m (sendTriad p e s) = .next (renderAwaits p e q m rest s) := by
  induction m using Nat.twoStepInduction generalizing n p s with
  | zero =>
    obtain rfl : q = p := Fin.ext hq
    rw [sendTriad_eq_renderAwaits (by rw [Fin.le_def]; omega), ha]; rfl
  | one =>
    obtain rfl : q = p := Fin.ext hq
    rw [← sendData_eq_renderAwaits (by rw [Fin.le_def]; omega)]
    exact stepN_succ (step_triadTaken hi rfl ha)
  | more m ih _ =>
    obtain ⟨n, rfl⟩ : ∃ k, n = k + 1 := ⟨n - 1, by omega⟩
    have hpe : p < e := by rw [Fin.lt_def]; omega
    have hp1 : (p + 1).val = p.val + 1 := Fin.val_add_one_of_lt (hpe.trans_le (Fin.le_last e))
    have hpage := stepN_sendTriad_of_lt (more := (goodAnswers (n + 1)).take m ++ rest) hpe hi ha
    rw [Nat.add_comm m 2, stepN_add hpage, Nat.add_comm 2 m, ← renderAwaits_pageSent hpe]
    exact ih (by omega) (by omega) (by omega) hi rfl

/-- Settles O45: `m` right answers lead to transaction `m`, and the wrong answer to it ends the command. -/
theorem renderStopsAtTheFirstWrongAnswer : Obligations.RenderStopsAtTheFirstWrongAnswer := by
  intro p e q s c rest m a more hpe hm hq hi hr hc hd ha hlegal hwrong
  have hlength : (if m % 2 = 1 then 129 else 3) = transactionLength (m % 2 == 1) := by
    simp only [transactionLength, beq_iff_eq]
  rw [hlength] at hlegal hwrong ⊢
  have hrange : e.val = p.val + (e.val - p.val) := (Nat.add_sub_of_le hpe).symm
  have hawaits := stepN_sendTriad_awaits (s := accept c rest s) hrange hm hq hi ha
  have hrun := calc
    stepN (1 + (m + 1)) s = stepN (m + 1) _ := stepN_add (stepN_succ (step_render hpe hi hr hc hd))
    _ = stepN 1 _ := stepN_add hawaits
    _ = .next _ := stepN_succ (step_wrongAnswer (p := q) (e := e) hi rfl rfl hwrong)
  refine ⟨_, hrun, rfl, ?_, rfl, rfl, rfl, rfl, curOf_cursorTriad q⟩
  exact recordOf_wrongAnswer q hlegal ▸ (raise_frame _ _).2.1

end Sys2Proof.Machine
end

section
/-! PROOFS. Reset and the end of a run (spec/70_reset_and_hazards.md): the reset event ends whatever runs, and a run ends only
with the record of its last command. -/

namespace Sys2Proof.Machine

/-! ### The reset event -/

/-- Settles O2: the step is `takeReset`, which drops an answer only where a transaction waited for it. -/
theorem resetEventEndsWhateverRuns : Obligations.ResetEventEndsWhateverRuns := by
  intro s h
  refine ⟨takeReset s, step_of_resetIn h, rfl, rfl, rfl, rfl, rfl, rfl, rfl, rfl, rfl, ?_, ?_⟩
  · rintro p e (hr | hr) <;> simp [hr, RunState.waiting]
  · rintro (hr | hr) <;> simp [hr, RunState.waiting]

/-! ### The end of a run -/

/-- An effect that leaves the block idle delivers a record, the one `ST` then holds (R94). -/
theorem Effect.completions_apply_of_idle {f : Effect} {s : State} (h : (f.apply s).rs = .idle) :
    (f.apply s).completions = s.completions ++ [(f.apply s).st] := by
  cases f with
  | paint fb => rfl
  | finish code => rfl
  | sendTriad p e => cases h
  | sendData p e => cases h

theorem completions_runLatched_of_idle {s t : State} (h : runLatched s = .next t) (hr : t.rs = .idle) :
    t.completions = s.completions ++ [t.st] := by
  obtain ⟨f, hf⟩ := runLatched_effect s.latch s.font s.fb
  rw [hf s rfl rfl rfl] at h
  cases h
  exact Effect.completions_apply_of_idle hr

theorem answered_cases_of_idle {f : SinkAnswer → Effect} {s : State} (hr : (answered f s).rs = .idle) :
    answered f s = s ∨ (answered f s).completions = s.completions ++ [(answered f s).st] := by
  obtain heq | ⟨a, rest, -, heq⟩ := answered_cases f s
  · exact .inl heq
  · rw [heq] at hr ⊢
    exact .inr (Effect.completions_apply_of_idle hr)

/-- A step to an idle block takes a reset, waits for a command, or delivers a record (R81, R94, R301). -/
theorem step_cases_of_idle {s t : State} (h : step s = .next t) (hr : t.rs = .idle) :
    t = takeReset s ∨ t = s ∨ t.completions = s.completions ++ [t.st] := by
  obtain ⟨-, rfl⟩ | ⟨-, -, -, rfl⟩ | ⟨-, -, c, rest, -, hrun⟩ | ⟨-, -, hrun⟩ | ⟨-, p, e, -, rfl⟩ | ⟨-, p, e, -, rfl⟩ :=
    step_cases h
  · exact .inl rfl
  · exact .inr (.inl rfl)
  · exact .inr (.inr (completions_runLatched_of_idle hrun hr :))
  · exact .inr (.inr (completions_runLatched_of_idle hrun hr))
  · rw [triadAnswered_eq] at hr ⊢; exact .inr (answered_cases_of_idle hr)
  · rw [dataAnswered_eq] at hr ⊢; exact .inr (answered_cases_of_idle hr)

/-- Between two steps a block with no record owed is idle (logs 7, 18). -/
theorem Inv.idle_of_not_owed {s : State} (h : Inv s) (howed : s.recordOwed = false) : s.rs = .idle := by
  have hfits := h.running
  cases hr : s.rs with
  | idle => rfl
  | exec => simp [RunStateFits, hr] at hfits
  | curWait p e => simp [RunStateFits, hr, howed] at hfits
  | dataWait p e => simp [RunStateFits, hr, howed] at hfits

/-- A reset does not end a run: what it ends without a record stays owed (R301, R311; log 18). -/
theorem Inv.runEnded_of_takeReset {s : State} (h : Inv s) (hend : RunEnded (takeReset s)) : RunEnded s := by
  obtain ⟨-, hc, howed⟩ := hend
  exact ⟨h.idle_of_not_owed howed, hc, howed⟩

/-- A run ends in a step that delivers a record (R311). -/
theorem Inv.completions_of_run_ends {s t : State} (h : Inv s) (hstep : step s = .next t) (hs : ¬ RunEnded s)
    (ht : RunEnded t) : t.completions = s.completions ++ [t.st] := by
  obtain rfl | rfl | hcomp := step_cases_of_idle hstep ht.1
  · exact absurd (h.runEnded_of_takeReset ht) hs
  · exact absurd ht hs
  · exact hcomp

/-- A run that has ended stays ended: its block waits, or takes a reset (R301, R311). -/
theorem runEnded_step {s t : State} (h : RunEnded s) (hstep : step s = .next t) : RunEnded t := by
  obtain ⟨hr, hc, howed⟩ := h
  cases hi : s.resetIn with
  | true =>
    rw [step_of_resetIn hi] at hstep
    cases hstep; exact ⟨rfl, hc, howed⟩
  | false =>
    rw [step_of_idle_nil hi hr hc] at hstep
    cases hstep; exact ⟨hr, hc, howed⟩

theorem not_runEnded_of_waiting {s : State} {p e : Fin 8} (hr : s.rs = .curWait p e ∨ s.rs = .dataWait p e) :
    ¬ RunEnded s := by
  rintro ⟨hidle, -, -⟩
  simp [hidle] at hr

theorem finalState_of_not_runEnded {s : State} (h : ¬ RunEnded s) : finalState s = none := if_neg h

/-- Settles O56: a run ends with a record because a reset keeps owed what it ends, and an idle block with nothing to do only
waits. -/
theorem runEndsOnlyWithTheLastRecord : Obligations.RunEndsOnlyWithTheLastRecord := by
  refine ⟨?_, ?_, fun _ _ => runEnded_step, fun _ h => if_pos h⟩
  · exact fun s t h hstep hs ht => ⟨h.completions_of_run_ends hstep hs ht, ht.2.1⟩
  · intro p e s t h hr
    have hs : ¬ RunEnded s := not_runEnded_of_waiting hr
    refine ⟨finalState_of_not_runEnded hs, fun hi hstep => ?_⟩
    rw [step_of_resetIn hi] at hstep
    cases hstep
    have ht : ¬ RunEnded (takeReset s) := fun ht => hs (h.runEnded_of_takeReset ht)
    exact ⟨ht, finalState_of_not_runEnded ht⟩

end Sys2Proof.Machine
end
